-- ==== Sys2Proof/Word.lean ====
section
/-! DEFINITION. The value types of the machine: bytes, 16-bit words and register numbers (spec 00_scope.md R9, R11). -/

namespace Sys2Proof

/-- An 8-bit value: a general register, a timer, a byte of memory, a sprite row. -/
abbrev Byte := BitVec 8

/-- A 16-bit value: an instruction word, I, PC, a stack entry. -/
abbrev Word := BitVec 16

/-- The number of a general register, V0 to VF (R30). -/
abbrev Reg := Fin 16

/-- VF, the register that receives the flags (R33). -/
abbrev regF : Reg := 15

end Sys2Proof
end

