-- ==== Sys2Proof/Machine/Flags.lean ====
section
/-! DEFINITION. The flag values that instructions write to VF (spec 10_state.md R34). -/

namespace Sys2Proof.Machine

/-- A flag as the byte 1 or 0. -/
def flagByte (b : Bool) : Byte := if b then 1 else 0

/-- The carry of `8xy4`: the unsigned sum exceeds 0xFF (R156). -/
def carryFlag (a b : Byte) : Byte := flagByte (decide (a.toNat + b.toNat > 0xFF))

/-- The not-borrow of `8xy5` and `8xy7`: minuend ≥ subtrahend (R158). -/
def notBorrowFlag (minuend subtrahend : Byte) : Byte := flagByte (decide (minuend.toNat ≥ subtrahend.toNat))

/-- The bit that `8xy6` shifts out: `a & 1` (R160). -/
def shiftedOutRight (a : Byte) : Byte := a &&& 1#8

/-- The bit that `8xyE` shifts out: `a >> 7` (R162). -/
def shiftedOutLeft (a : Byte) : Byte := a >>> 7

/-- The collision of `Dxyn` (R223, R225). -/
def collisionFlag (c : Bool) : Byte := flagByte c

end Sys2Proof.Machine
end

