-- ==== Sys2Proof/Syntax.lean ====
section
/-! DEFINITION. The instructions: one constructor per row of spec/opcode_table.json, in the table's order (spec
30_encoding.md R107). The fields are those of R104: x and y are register numbers, kk a byte, nnn a 12-bit address, n a count. -/

namespace Sys2Proof

/-- The 34 instructions of R107. An unknown word (R108) is no instruction: it is no row of the table, and the decoder answers
none for it. -/
inductive Instr where
  /-- `00E0` CLS, clear the display (R224). -/
  | cls
  /-- `00EE` RET, return from subroutine (R204). -/
  | ret
  /-- `1nnn` JP nnn, jump (R201). -/
  | jp (nnn : BitVec 12)
  /-- `2nnn` CALL nnn, call subroutine (R203). -/
  | call (nnn : BitVec 12)
  /-- `3xkk` SE Vx, kk, skip if equal to the immediate (R181). -/
  | seImm (x : Reg) (kk : Byte)
  /-- `4xkk` SNE Vx, kk, skip if different from the immediate (R182). -/
  | sneImm (x : Reg) (kk : Byte)
  /-- `5xy0` SE Vx, Vy, skip if the registers are equal (R183). -/
  | seReg (x y : Reg)
  /-- `6xkk` LD Vx, kk, load immediate (R130). -/
  | ldImm (x : Reg) (kk : Byte)
  /-- `7xkk` ADD Vx, kk, add immediate without carry (R152). -/
  | addImm (x : Reg) (kk : Byte)
  /-- `8xy0` LD Vx, Vy, copy (R131). -/
  | ldReg (x y : Reg)
  /-- `8xy1` OR Vx, Vy (R153). -/
  | orReg (x y : Reg)
  /-- `8xy2` AND Vx, Vy (R154). -/
  | andReg (x y : Reg)
  /-- `8xy3` XOR Vx, Vy (R155). -/
  | xorReg (x y : Reg)
  /-- `8xy4` ADD Vx, Vy, add with carry (R156). -/
  | addReg (x y : Reg)
  /-- `8xy5` SUB Vx, Vy, subtract (R157). -/
  | sub (x y : Reg)
  /-- `8xy6` SHR Vx, shift right (R160); y is a field of the word that the instruction ignores (R159). -/
  | shr (x y : Reg)
  /-- `8xy7` SUBN Vx, Vy, reverse subtract (R161). -/
  | subn (x y : Reg)
  /-- `8xyE` SHL Vx, shift left (R162); y is a field of the word that the instruction ignores (R159). -/
  | shl (x y : Reg)
  /-- `9xy0` SNE Vx, Vy, skip if the registers differ (R184). -/
  | sneReg (x y : Reg)
  /-- `Annn` LD I, nnn, load index (R132). -/
  | ldI (nnn : BitVec 12)
  /-- `Bnnn` JP V0, nnn, jump plus V0 (R202). -/
  | jpV0 (nnn : BitVec 12)
  /-- `Cxkk` RND Vx, kk, random byte masked by kk (R165). -/
  | rnd (x : Reg) (kk : Byte)
  /-- `Dxyn` DRW Vx, Vy, n, draw an n-row sprite (R225). -/
  | drw (x y : Reg) (n : Nat)
  /-- `Ex9E` SKP Vx, skip if the key is pressed (R185). -/
  | skp (x : Reg)
  /-- `ExA1` SKNP Vx, skip if the key is not pressed (R186). -/
  | sknp (x : Reg)
  /-- `Fx07` LD Vx, DT, read the delay timer (R240). -/
  | ldVxDt (x : Reg)
  /-- `Fx0A` LD Vx, K, wait for a key (R244). -/
  | ldVxK (x : Reg)
  /-- `Fx15` LD DT, Vx, set the delay timer (R241). -/
  | ldDtVx (x : Reg)
  /-- `Fx18` LD ST, Vx, set the sound timer (R242). -/
  | ldStVx (x : Reg)
  /-- `Fx1E` ADD I, Vx, index add (R164). -/
  | addI (x : Reg)
  /-- `Fx29` LD F, Vx, font glyph address (R133). -/
  | ldF (x : Reg)
  /-- `Fx33` LD B, Vx, BCD store (R134). -/
  | ldB (x : Reg)
  /-- `Fx55` LD [I], Vx, store V0 to Vx (R135). -/
  | storeRegs (x : Reg)
  /-- `Fx65` LD Vx, [I], load V0 to Vx (R136). -/
  | loadRegs (x : Reg)
  deriving DecidableEq, Repr

end Sys2Proof
end

