-- ==== Sys2Proof/WellFormed.lean ====
section
/-! DEFINITION. Which terms of `Instr` are instructions of the machine: the fields of spec 30_encoding.md R104 bound the
operands. The bounds of x, y, kk and nnn are in their types; the sprite height n is a count (R105) and is checked here. -/

namespace Sys2Proof

/-- The sprite height of `Dxyn` fits the 4-bit field n: "n is a 4-bit unsigned count 0 to 15" (R105). -/
def heightFits (n : Nat) : Bool := decide (n < 16)

/-- Every operand lies in its field (R104, R105). -/
def Instr.wellFormed : Instr → Bool
  | .cls | .ret => true
  | .jp _ | .call _ | .ldI _ | .jpV0 _ => true
  | .seImm _ _ | .sneImm _ _ | .ldImm _ _ | .addImm _ _ | .rnd _ _ => true
  | .seReg _ _ | .sneReg _ _ | .ldReg _ _ | .orReg _ _ | .andReg _ _ | .xorReg _ _ => true
  | .addReg _ _ | .sub _ _ | .shr _ _ | .subn _ _ | .shl _ _ => true
  | .drw _ _ n => heightFits n
  | .skp _ | .sknp _ => true
  | .ldVxDt _ | .ldVxK _ | .ldDtVx _ | .ldStVx _ | .addI _ | .ldF _ | .ldB _ => true
  | .storeRegs _ | .loadRegs _ => true

end Sys2Proof
end

