-- ==== Sys2Proof/Decode.lean ====
section
/-! DEFINITION. The decoder of spec 30_encoding.md R103 to R108, total on words and on bytes, and the encoder written from the
same table. -/

namespace Sys2Proof

/-! ### Fields of an instruction word (R104) -/

/-- The primary opcode, `w[15:12]`. -/
def opOf (w : Word) : BitVec 4 := w.extractLsb' 12 4

/-- The register field x, `w[11:8]`. -/
def xOf (w : Word) : Reg := (w.extractLsb' 8 4).toFin

/-- The register field y, `w[7:4]`. -/
def yOf (w : Word) : Reg := (w.extractLsb' 4 4).toFin

/-- The field n, `w[3:0]`. -/
def nOf (w : Word) : BitVec 4 := w.extractLsb' 0 4

/-- The field kk, `w[7:0]`. -/
def kkOf (w : Word) : Byte := w.extractLsb' 0 8

/-- The field nnn, `w[11:0]`. -/
def nnnOf (w : Word) : BitVec 12 := w.extractLsb' 0 12

/-! ### Decoding -/

/-- The rows of primary opcode 8, selected by n (R107). -/
def decodeOp8 (w : Word) : Option Instr :=
  match (nOf w).toNat with
  | 0x0 => some (.ldReg (xOf w) (yOf w))
  | 0x1 => some (.orReg (xOf w) (yOf w))
  | 0x2 => some (.andReg (xOf w) (yOf w))
  | 0x3 => some (.xorReg (xOf w) (yOf w))
  | 0x4 => some (.addReg (xOf w) (yOf w))
  | 0x5 => some (.sub (xOf w) (yOf w))
  | 0x6 => some (.shr (xOf w) (yOf w))
  | 0x7 => some (.subn (xOf w) (yOf w))
  | 0xE => some (.shl (xOf w) (yOf w))
  | _ => none

/-- The rows of primary opcode E, selected by kk (R107). -/
def decodeOpE (w : Word) : Option Instr :=
  match (kkOf w).toNat with
  | 0x9E => some (.skp (xOf w))
  | 0xA1 => some (.sknp (xOf w))
  | _ => none

/-- The rows of primary opcode F, selected by kk (R107). -/
def decodeOpF (w : Word) : Option Instr :=
  match (kkOf w).toNat with
  | 0x07 => some (.ldVxDt (xOf w))
  | 0x0A => some (.ldVxK (xOf w))
  | 0x15 => some (.ldDtVx (xOf w))
  | 0x18 => some (.ldStVx (xOf w))
  | 0x1E => some (.addI (xOf w))
  | 0x29 => some (.ldF (xOf w))
  | 0x33 => some (.ldB (xOf w))
  | 0x55 => some (.storeRegs (xOf w))
  | 0x65 => some (.loadRegs (xOf w))
  | _ => none

/-- Decode(w) of R107: the instruction of the one row whose condition the word meets, and none for the unknown words of R108.
It reads the word alone (R106). -/
def decodeWord (w : Word) : Option Instr :=
  match (opOf w).toNat with
  | 0x0 => if w = 0x00E0#16 then some .cls else if w = 0x00EE#16 then some .ret else none
  | 0x1 => some (.jp (nnnOf w))
  | 0x2 => some (.call (nnnOf w))
  | 0x3 => some (.seImm (xOf w) (kkOf w))
  | 0x4 => some (.sneImm (xOf w) (kkOf w))
  | 0x5 => if nOf w = 0x0#4 then some (.seReg (xOf w) (yOf w)) else none
  | 0x6 => some (.ldImm (xOf w) (kkOf w))
  | 0x7 => some (.addImm (xOf w) (kkOf w))
  | 0x8 => decodeOp8 w
  | 0x9 => if nOf w = 0x0#4 then some (.sneReg (xOf w) (yOf w)) else none
  | 0xA => some (.ldI (nnnOf w))
  | 0xB => some (.jpV0 (nnnOf w))
  | 0xC => some (.rnd (xOf w) (kkOf w))
  | 0xD => some (.drw (xOf w) (yOf w) (nOf w).toNat)
  | 0xE => decodeOpE w
  | 0xF => decodeOpF w
  | _ => none

/-- Why a byte string does not begin with an instruction. -/
inductive DecodeError where
  /-- Fewer than the 2 bytes that every instruction has (R111). -/
  | truncated
  /-- The word is one of the unknown words of R108; the cycle gives it the effect of R109. -/
  | unknownOpcode (w : Word)
  deriving DecidableEq, Repr

/-- The instruction word of two bytes in memory order: big-endian, the byte at the lower address is `w[15:8]` (R86, R87). -/
def wordOfBytes (hi lo : Byte) : Word := hi ++ lo

/-- The byte of a word at the lower address, `w[15:8]`. -/
def hiByte (w : Word) : Byte := w.extractLsb' 8 8

/-- The byte of a word at the higher address, `w[7:0]`. -/
def loByte (w : Word) : Byte := w.extractLsb' 0 8

/-- Read one instruction from the front of a byte string and return it with the rest: always 2 bytes (R103, R111). -/
def decode : List Byte → Except DecodeError (Instr × List Byte)
  | hi :: lo :: rest =>
    match decodeWord (wordOfBytes hi lo) with
    | some i => .ok (i, rest)
    | none => .error (.unknownOpcode (wordOfBytes hi lo))
  | [_] => .error .truncated
  | [] => .error .truncated

/-- The instruction the decoder reads from the word whose bits are `w`, numbered as the opcode table numbers them; the bits
above `nbits` are 0. The word is laid out as memory holds it, its first byte `w[15:8]` (R87). -/
def decodeTableWord (nbits w : Nat) : Option Instr :=
  let word : Word := BitVec.ofNat 16 (w % 2 ^ nbits)
  match decode [hiByte word, loByte word] with
  | .ok (i, _) => some i
  | .error _ => none

/-! ### Encoding -/

/-- The word `op nnn`. -/
def encNnn (op : Nat) (nnn : BitVec 12) : Word := BitVec.ofNat 16 (op * 0x1000 + nnn.toNat)

/-- The word `op x kk`. -/
def encXkk (op : Nat) (x : Reg) (kk : Byte) : Word := BitVec.ofNat 16 (op * 0x1000 + x.val * 0x100 + kk.toNat)

/-- The word `op x y n`. -/
def encXyn (op : Nat) (x y : Reg) (n : Nat) : Word :=
  BitVec.ofNat 16 (op * 0x1000 + x.val * 0x100 + y.val * 0x10 + n)

/-- The word of an instruction, from the encodings of R107. -/
def encodeWord : Instr → Word
  | .cls => 0x00E0#16
  | .ret => 0x00EE#16
  | .jp nnn => encNnn 0x1 nnn
  | .call nnn => encNnn 0x2 nnn
  | .seImm x kk => encXkk 0x3 x kk
  | .sneImm x kk => encXkk 0x4 x kk
  | .seReg x y => encXyn 0x5 x y 0x0
  | .ldImm x kk => encXkk 0x6 x kk
  | .addImm x kk => encXkk 0x7 x kk
  | .ldReg x y => encXyn 0x8 x y 0x0
  | .orReg x y => encXyn 0x8 x y 0x1
  | .andReg x y => encXyn 0x8 x y 0x2
  | .xorReg x y => encXyn 0x8 x y 0x3
  | .addReg x y => encXyn 0x8 x y 0x4
  | .sub x y => encXyn 0x8 x y 0x5
  | .shr x y => encXyn 0x8 x y 0x6
  | .subn x y => encXyn 0x8 x y 0x7
  | .shl x y => encXyn 0x8 x y 0xE
  | .sneReg x y => encXyn 0x9 x y 0x0
  | .ldI nnn => encNnn 0xA nnn
  | .jpV0 nnn => encNnn 0xB nnn
  | .rnd x kk => encXkk 0xC x kk
  | .drw x y n => encXyn 0xD x y n
  | .skp x => encXkk 0xE x 0x9E#8
  | .sknp x => encXkk 0xE x 0xA1#8
  | .ldVxDt x => encXkk 0xF x 0x07#8
  | .ldVxK x => encXkk 0xF x 0x0A#8
  | .ldDtVx x => encXkk 0xF x 0x15#8
  | .ldStVx x => encXkk 0xF x 0x18#8
  | .addI x => encXkk 0xF x 0x1E#8
  | .ldF x => encXkk 0xF x 0x29#8
  | .ldB x => encXkk 0xF x 0x33#8
  | .storeRegs x => encXkk 0xF x 0x55#8
  | .loadRegs x => encXkk 0xF x 0x65#8

/-- The bytes of an instruction as memory holds them (R87). -/
def encode (i : Instr) : List Byte := [hiByte (encodeWord i), loByte (encodeWord i)]

end Sys2Proof
end

