-- ==== Sys2Proof/Config.lean ====
section
/-! DEFINITION. The parameters of the block: the constants that spec 00_scope.md R9 fixes, and the ones that R10 leaves open,
which are constants without a body, so that no proof can see their values. -/

namespace Sys2Proof

/-- The identity string of R3. -/
def Config.identity : String := "CHIP-8 (philboiv1n/chip-8-python core)"

/-- MEM_SIZE of R9. -/
def Config.memSize : Nat := 4096

/-- PROG_BASE of R9. -/
def Config.progBase : Nat := 0x200

/-- MAX_ROM of R9: 4096 - 0x200. -/
def Config.maxRom : Nat := 3584

/-- STACK_DEPTH of R9. -/
def Config.stackDepth : Nat := 16

/-- TIMER_HZ of R9. -/
def Config.timerHz : Nat := 60

/-- The lowest tick rate of R9. -/
def Config.minTickRate : Nat := 100

/-- The highest tick rate of R9. -/
def Config.maxTickRate : Nat := 3000

/-- FONT_BASE of R10, left open with FONT_BASE + 80 ≤ 0x200, so a number from 0 to 432. DESIGN CHOICE, safe: no value is
chosen (log 3). -/
opaque Config.fontBase : Fin 433

/-- The glyphs of R97, left open with a default: none for the default table, else the left four pixels of each of the 80 rows
(bits 3:0 of a row are 0). DESIGN CHOICE, safe: no table is chosen (log 4). -/
opaque Config.fontRows : Option (Vector (BitVec 4) 80)

/-- MAX_STEPS_PER_TICK of R10, left open with at least 1: this constant is how far it exceeds 1. DESIGN CHOICE, safe: no value
is chosen (log 5). -/
opaque Config.extraStepsPerTick : Nat

/-- INITIAL_TICK_RATE of R10, left open in [100, 3000]: this constant is how far it exceeds 100. DESIGN CHOICE, safe: no value
is chosen (log 6). -/
opaque Config.initialTickRateAbove100 : Fin 2901

/-- RNG of R10 and R166: the byte of the n-th random draw, any value at all. DESIGN CHOICE, safe: no value is chosen (log 7). -/
opaque Config.randomByte : Nat → Byte

end Sys2Proof
end

