-- ==== Sys2Proof/Machine/DisplayBuffer.lean ====
section
/-! DEFINITION. The display buffer and its operations (spec 10_state.md R45, 44_display.md R220 to R223, R227). -/

namespace Sys2Proof.Machine

/-- The grid of 64 columns by 32 rows of 1-bit pixels, row by row from the top, each row from the left (R45). -/
abbrev Display := Vector (Vector Bool 64) 32

/-- `clear()`: every pixel 0 (R220). -/
def Display.cleared : Display := Vector.replicate 32 (Vector.replicate 64 false)

/-- `disp[x][y]`: the pixel in column `x` and row `y` (R13, R45); there is none off the grid. -/
def Display.pixel (d : Display) (x y : Nat) : Bool :=
  if h : x < 64 ∧ y < 32 then (d[y]'h.2)[x]'h.1 else false

/-- `disp[x][y] ^ 1` at one pixel (R221); a position off the grid is clipped (R222). -/
def Display.toggle (d : Display) (x y : Nat) : Display :=
  if h : x < 64 ∧ y < 32 then d.set y ((d[y]'h.2).set x (!((d[y]'h.2)[x]'h.1)) h.1) h.2 else d

/-- One set sprite bit at column `px` and row `py`, with the collision so far: a set pixel about to be cleared is a collision
(R221, R223); beyond column 63 or row 31 the pixel is skipped (R222). -/
def Display.drawPixel (px py : Nat) (acc : Display × Bool) : Display × Bool :=
  if px > 63 ∨ py > 31 then acc else (acc.1.toggle px py, acc.2 || acc.1.pixel px py)

/-- One sprite row at screen row `py`: bit 7 - b is the pixel at column `x0 + b` (R221). -/
def Display.drawRow (x0 py : Nat) (row : Byte) (acc : Display × Bool) : Display × Bool :=
  (List.range 8).foldl
    (fun a b => if row.getLsbD (7 - b) then Display.drawPixel (x0 + b) py a else a) acc

/-- The rows of a sprite from screen row `py` down (R221). -/
def Display.drawRows (x0 : Nat) : Nat → List Byte → Display × Bool → Display × Bool
  | _, [], acc => acc
  | py, row :: rest, acc => Display.drawRows x0 (py + 1) rest (Display.drawRow x0 py row acc)

/-- `draw(x0, y0, rows)`: the buffer after the XOR and the collision bit (R221). -/
def Display.draw (d : Display) (x0 y0 : Nat) (rows : List Byte) : Display × Bool :=
  Display.drawRows x0 y0 rows (d, false)

/-- The frame of a buffer, row-major: element 64·y + x is `disp[x][y]` (R227). -/
def Display.frame (d : Display) : List Bool := d.toList.flatMap Vector.toList

end Sys2Proof.Machine
end

