-- ==== Sys2Proof/Machine/Params.lean ====
section
/-! DEFINITION. The open parameters of spec 00_scope.md R10 as the machine reads them, and the font table of 20_memory.md R97. -/

namespace Sys2Proof.Machine

/-- FONT_BASE, the address of the first byte of the font table (R10). -/
def fontBase : Nat := Config.fontBase.val

/-- MAX_STEPS_PER_TICK, the cap on CPU steps in one tick, at least 1 (R10). -/
def maxStepsPerTick : Nat := Config.extraStepsPerTick + 1

/-- INITIAL_TICK_RATE, the tick rate before any `set_speed`, in [100, 3000] (R10). -/
def initialTickRate : Nat := Config.minTickRate + Config.initialTickRateAbove100.val

/-- The default font table: 16 glyphs of 5 bytes, one byte per row from the top (R97). -/
def defaultFontTable : List Byte :=
  [0xF0, 0x90, 0x90, 0x90, 0xF0] ++ [0x20, 0x60, 0x20, 0x20, 0x70] ++
  [0xF0, 0x10, 0xF0, 0x80, 0xF0] ++ [0xF0, 0x10, 0xF0, 0x10, 0xF0] ++
  [0x90, 0x90, 0xF0, 0x10, 0x10] ++ [0xF0, 0x80, 0xF0, 0x10, 0xF0] ++
  [0xF0, 0x80, 0xF0, 0x90, 0xF0] ++ [0xF0, 0x10, 0x20, 0x40, 0x40] ++
  [0xF0, 0x90, 0xF0, 0x90, 0xF0] ++ [0xF0, 0x90, 0xF0, 0x10, 0xF0] ++
  [0xF0, 0x90, 0xF0, 0x90, 0x90] ++ [0xE0, 0x90, 0xE0, 0x90, 0xE0] ++
  [0xF0, 0x80, 0x80, 0x80, 0xF0] ++ [0xE0, 0x90, 0x90, 0x90, 0xE0] ++
  [0xF0, 0x80, 0xF0, 0x80, 0xF0] ++ [0xF0, 0x80, 0xF0, 0x80, 0x80]

/-- The font table, a parameter "with this value as its default" (R97): the default table, or any other of its form: 80 rows, the
left four pixels in bits 7:4 and bits 3:0 zero (log 4). -/
def fontTable : List Byte :=
  match Config.fontRows with
  | none => defaultFontTable
  | some rows => rows.toList.map fun row => row ++ 0#4

end Sys2Proof.Machine
end

