-- ==== Sys2Proof/Machine/Memory.lean ====
section
/-! DEFINITION. Memory (spec 20_memory.md): the 4096 bytes as a list of (address, byte) pairs in one canonical form, and the
byte reads and writes that everything else is built from. -/

namespace Sys2Proof.Machine

/-- Memory as the bytes that differ from the reset contents, in rising address order (R80). -/
abbrev Memory := List Host.Cell

/-- What an address that memory does not list reads as: the contents after a load of an empty ROM (R82): the font table at
FONT_BASE in the reserved low region, 0 everywhere else. DEDUCED (log 16). -/
def Memory.unlisted (a : Nat) : Byte :=
  if a < Config.progBase then
    if fontBase ≤ a then fontTable.getD (a - fontBase) 0 else 0
  else 0

/-- The byte at address `a` (R84 `MemRead`). -/
def Memory.read : Memory → Nat → Byte
  | [], a => Memory.unlisted a
  | (k, b) :: rest, a => if k = a then b else Memory.read rest a

/-- Memory that does not list address `a`. -/
def Memory.erase (m : Memory) (a : Nat) : Memory := m.filter fun c => c.1 ≠ a

/-- The entry `c` put before the first entry of a higher address. -/
def Memory.insert (c : Host.Cell) : Memory → Memory
  | [] => [c]
  | d :: rest => if d.1 < c.1 then d :: Memory.insert c rest else c :: d :: rest

/-- Memory with the byte `b` at address `a` (R84 `MemWrite`), in canonical form again: no entry where an unlisted `a` already
reads as `b`. -/
def Memory.write (m : Memory) (a : Nat) (b : Byte) : Memory :=
  if b = Memory.unlisted a then m.erase a else Memory.insert (a, b) (m.erase a)

/-- The bytes at `a`, `a + 1`, ..., ascending (R85). -/
def Memory.readBytes (m : Memory) (a : Nat) : Nat → List Byte
  | 0 => []
  | n + 1 => m.read a :: Memory.readBytes m (a + 1) n

/-- Store bytes at `a`, `a + 1`, ..., ascending (R85). -/
def Memory.writeBytes (m : Memory) (a : Nat) : List Byte → Memory
  | [] => m
  | b :: bs => Memory.writeBytes (m.write a b) (a + 1) bs

/-- The entries of the bytes laid out from `a` upward over the reset contents. -/
def Memory.image (a : Nat) : List Byte → Memory
  | [] => []
  | b :: bs =>
    if b = Memory.unlisted a then Memory.image (a + 1) bs else (a, b) :: Memory.image (a + 1) bs

/-- Memory after a load of `rom`: 0, then the font table, then the ROM at 0x200 (R82, R330). -/
def Memory.loaded (rom : List Byte) : Memory := Memory.image Config.progBase rom

/-- Memory with all 4096 bytes 0, as a session is created (R333). -/
def Memory.zeroed : Memory := Memory.image 0 (List.replicate Config.progBase 0)

/-- Every entry lies in the address space (R80) and says something else than the reset contents. -/
def Memory.entryOk (c : Host.Cell) : Bool := decide (c.1 < Config.memSize) && decide (c.2 ≠ Memory.unlisted c.1)

/-- The canonical form: addresses strictly rising, every entry in the address space and different from what its address reads
as unlisted. -/
def Memory.wf : Memory → Bool
  | [] => true
  | [c] => Memory.entryOk c
  | c :: d :: rest => Memory.entryOk c && decide (c.1 < d.1) && Memory.wf (d :: rest)

end Sys2Proof.Machine
end

