-- ==== Sys2Proof/Machine/State.lean ====
section
/-! DEFINITION. The state of the block as plain data (spec 10_state.md), the events and results it deals in, its values after
reset and at session creation. -/

namespace Sys2Proof.Machine

/-- The fatal reasons of R261. -/
inductive HaltReason where
  /-- Code 1: `2nnn` with SP = 16 (R262). -/
  | stackOverflow
  /-- Code 2: `00EE` with SP = 0 (R263). -/
  | stackUnderflow
  /-- Code 3: a fetch with PC > 0xFFE (R264). -/
  | fetchOutOfBounds
  /-- Code 4: a data access above 0xFFF (R265). -/
  | dataOutOfBounds
  deriving DecidableEq, Repr

/-- The serializer state (R49). -/
inductive Sched where
  /-- No ROM has been loaded into this session. -/
  | idle
  /-- Ticks run. -/
  | running
  /-- A fatal condition ended the run; only a load leaves this state (R270). -/
  | halted
  deriving DecidableEq, Repr

/-- The results a CPU step returns (R101). The fatal result is not in this list: the tick holds it apart (R290). -/
inductive StepResult where
  /-- `display_dirty` of `00E0` and `Dxyn`. -/
  | displayDirty
  /-- `entered_key_wait(x)` of `Fx0A`. -/
  | enteredKeyWait (x : Reg)
  /-- `sound_state_changed(on)` or `(off)` of `Fx18` and of the timer subsystem. -/
  | soundStateChanged (on : Bool)
  /-- `diagnostic(pc, w)` of an unknown opcode. -/
  | diagnostic (pc w : Word)
  deriving DecidableEq, Repr

/-- The inbound events (R52, R300 to R302): integers as the host offers them, in range or not. -/
inductive InEvent where
  | keyDown (k : Int)
  | keyUp (k : Int)
  | setSpeed (r : Int)
  deriving DecidableEq, Repr

/-- The outbound events (R304 to R307). -/
inductive OutEvent where
  /-- The whole buffer, row-major (R227, R304). -/
  | frame (buffer : List Bool)
  /-- On entering a key-wait for this register (R305). -/
  | needKey (x : Reg)
  /-- The tone turned on or off (R306). -/
  | sound (on : Bool)
  /-- A fatal condition, once (R307). -/
  | halted (reason : HaltReason)
  deriving DecidableEq, Repr

/-- What the diagnostic port carries (R308): the address and the word of an unknown opcode. -/
structure Diagnostic where
  pc : Word
  word : Word
  deriving DecidableEq, Repr

/-- The answer to a load request (R303). -/
inductive LoadReply where
  | ok
  | invalidROM
  deriving DecidableEq, Repr

/-- Where the tick of R290 stands, that is, what the next step does. -/
inductive Phase where
  /-- Between two ticks: the next step takes an input of the host. -/
  | boundary
  /-- Step (b), with this many CPU steps of the budget left. -/
  | cpu (left : Nat)
  /-- Step (c), the timer subsystem. -/
  | timers
  /-- Step (d), the frame. -/
  | frame
  /-- Step (e), the other outbound events and the halt. -/
  | events
  deriving DecidableEq, Repr

/-- What the host can do between two ticks (R309). -/
inductive HostInput where
  /-- Offer an inbound event (R300 to R302). -/
  | offer (e : InEvent)
  /-- Request a load of these bytes (R303). -/
  | load (bytes : List Byte)
  /-- A tick boundary, this much wall time (in seconds) after the one before it (R290), and the events offered after it and
  before the next boundary, while the tick runs (R300 "at any time"). -/
  | elapse (time : Rat) (during : List InEvent)
  /-- Take the oldest event of the outbound channel (R296). -/
  | accept
  /-- Drop the frame at this place of the outbound channel if a later frame follows it (R296, coalescing). -/
  | dropFrame (n : Nat)
  /-- End the session at this tick boundary (R299). -/
  | teardown
  /-- End the session between two steps of the tick in progress: when it has this many CPU steps left (R299); at the boundary
  where this input stands next if no such point comes before. -/
  | teardownBetweenSteps (left : Nat)
  deriving DecidableEq, Repr

/-- The whole state of the block. -/
structure State where
  /-- V0 to VF (R30). -/
  v : Vector Byte 16
  /-- I (R35). -/
  index : Word
  /-- PC (R36). -/
  pc : Word
  /-- The call stack (R40). -/
  stack : Vector Word 16
  /-- SP, the number of stack entries in use, 0 to 16 (R40). -/
  sp : Fin 17
  /-- DT, the delay timer (R42). -/
  dt : Byte
  /-- ST, the sound timer (R43). -/
  st : Byte
  /-- `sound_on`, the sound state last emitted (R44). -/
  soundOn : Bool
  /-- The display buffer (R45). -/
  disp : Display
  /-- `display_dirty` (R46). -/
  displayDirty : Bool
  /-- `key[0..15]`, true = pressed (R47). -/
  keys : Vector Bool 16
  /-- `wait_active` of the key-wait latch (R48). -/
  waitActive : Bool
  /-- `wait_reg` of the key-wait latch (R48). -/
  waitReg : Reg
  /-- Memory (R80). -/
  mem : Memory
  /-- `sched` (R49). -/
  sched : Sched
  /-- `halt_reason`, held with `sched` = Halted (R49). -/
  haltReason : Option HaltReason
  /-- `tick_rate`, CPU steps per second (R50). -/
  tickRate : Nat
  /-- `acc_cpu`, seconds (R51). -/
  accCpu : Rat
  /-- `acc_timer`, seconds (R51). -/
  accTimer : Rat
  /-- `inq`, the inbound handoff, oldest first (R52). -/
  inq : List InEvent
  /-- The outbound channel, oldest first (R52, R296). -/
  outbound : List OutEvent
  /-- The diagnostic port, oldest first (R308). -/
  diagnostics : List Diagnostic
  /-- The answer to the last load request (R303). -/
  loadReply : Option LoadReply
  /-- The session was torn down (R299). -/
  tornDown : Bool
  /-- Where the tick stands (R290). -/
  phase : Phase
  /-- `elapsed` of this tick (R290). -/
  elapsed : Rat
  /-- `out` of this tick: the results of its steps so far, in order (R290). -/
  results : List StepResult
  /-- `fatal` of this tick (R290). -/
  fatal : Option HaltReason
  /-- How many random bytes have been drawn: the model's own field, which picks the next free value (R166; log 7). -/
  draws : Nat
  /-- What the host does next, in order: the model's own field, which stands for the outside world (R309; log 9). -/
  host : List HostInput
  deriving DecidableEq, Repr

/-- Why the block takes no step. A fatal condition of R261 is none of these: it is a next state that leads to Halted (log 11). -/
inductive Fault where
  /-- Raised by `step` on a session that was torn down: "no instruction may execute after teardown begins" (R299). Safe: the
  spec gives a torn-down session no step. -/
  | tornDown
  deriving DecidableEq, Repr

/-- Why the model gives an instruction no meaning. -/
inductive Refusal where
  /-- Raised by an arm of `exec` whose instruction has no meaning yet. Safe: nothing can be proved of its effect. No arm raises
  it. -/
  | notModelled (mnemonic : String)
  deriving DecidableEq, Repr

/-- What a step or an instruction answers. -/
abbrev Result := Host.Outcome State Fault Refusal

/-- A new session, before its first load (R333): `Idle`, every register, stack entry, timer, latch and pixel 0, memory all 0. -/
def State.created : State where
  v := Vector.replicate 16 0
  index := 0
  pc := 0
  stack := Vector.replicate 16 0
  sp := 0
  dt := 0
  st := 0
  soundOn := false
  disp := Display.cleared
  displayDirty := false
  keys := Vector.replicate 16 false
  waitActive := false
  waitReg := 0
  mem := Memory.zeroed
  sched := .idle
  haltReason := none
  tickRate := initialTickRate
  accCpu := 0
  accTimer := 0
  inq := []
  outbound := []
  diagnostics := []
  loadReply := none
  tornDown := false
  phase := .boundary
  elapsed := 0
  results := []
  fatal := none
  draws := 0
  host := []

/-- The block right after reset: the load reset of R330 with an empty ROM, in a new session (R54). DESIGN CHOICE (log 1). -/
def State.reset : State where
  v := Vector.replicate 16 0
  index := 0
  pc := 0x200
  stack := Vector.replicate 16 0
  sp := 0
  dt := 0
  st := 0
  soundOn := false
  disp := Display.cleared
  displayDirty := true
  keys := Vector.replicate 16 false
  waitActive := false
  waitReg := 0
  mem := []
  sched := .running
  haltReason := none
  tickRate := initialTickRate
  accCpu := 0
  accTimer := 0
  inq := []
  outbound := []
  diagnostics := []
  loadReply := some .ok
  tornDown := false
  phase := .boundary
  elapsed := 0
  results := []
  fatal := none
  draws := 0
  host := []

end Sys2Proof.Machine
end

