-- ==== Sys2Proof/Machine/Ops.lean ====
section
/-! DEFINITION. The named operations over registers, memory, stack and results that every meaning is written with, and taking a
fatal condition, the block's only exception (spec 60_exceptions.md R260 to R267). There is no return from one: "There is no
return-from-trap instruction" (R270); a load is the only way out of Halted. -/

namespace Sys2Proof.Machine

/-! ### Registers -/

/-- `V[x]` (R13, R31). -/
def State.getV (s : State) (x : Reg) : Byte := s.v[x.val]

/-- `V[x] <- b` (R13, R31). -/
def State.setV (s : State) (x : Reg) (b : Byte) : State := { s with v := s.v.set x.val b }

/-- `V[x] <- b`, then `V[F] <- flag`: the flag is written last (R33, R150). -/
def State.setVFlag (s : State) (x : Reg) (b flag : Byte) : State := (s.setV x b).setV regF flag

/-- `I <- a` (R13, R35). -/
def State.setIndex (s : State) (a : Word) : State := { s with index := a }

/-- `PC <- a` at the end of the step (R36, R100). -/
def State.setPc (s : State) (a : Word) : State := { s with pc := a }

/-- The default successor, PC + 2 (R100). -/
def State.advance (s : State) : State := s.setPc (s.pc + 2)

/-- PC + 4 when a skip condition holds and PC + 2 otherwise (R180). -/
def State.skipIf (s : State) (c : Bool) : State := if c then s.setPc (s.pc + 4) else s.advance

/-- The step ends in the next state `s` with PC at the default successor. -/
def State.done (s : State) : Result := .next s.advance

/-- `emit e` (R15): append a result to the tick's list. -/
def State.emit (s : State) (e : StepResult) : State := { s with results := s.results ++ [e] }

/-! ### Fatal conditions -/

/-- The numeric code of a reason (R261). -/
def HaltReason.code : HaltReason → Nat
  | .stackOverflow => 1
  | .stackUnderflow => 2
  | .fetchOutOfBounds => 3
  | .dataOutOfBounds => 4

/-- `raise Fatal(r)` (R15, R260, R267): nothing of the machine changes, the tick's CPU steps end with the reason recorded, and
the tick goes on at step (d), without its timer decrements (R290, R295). DEDUCED (log 11). -/
def State.raiseFatal (s : State) (r : HaltReason) : Result := .next { s with fatal := some r, phase := .frame }

/-! ### Memory -/

/-- `mem[a]`. -/
def State.readByte (s : State) (a : Nat) : Byte := s.mem.read a

/-- Bytes stored at ascending addresses from `a` (R85). -/
def State.storeBytes (s : State) (a : Nat) (bs : List Byte) : State := { s with mem := s.mem.writeBytes a bs }

/-- The check of R84: every one of the `n` addresses from `a` is at most 0xFFF. No address is checked when `n` is 0. -/
def dataInBounds (a n : Nat) : Bool := n == 0 || decide (a + n ≤ Config.memSize)

/-- Do `f` if the `n` addresses from I are in bounds, else take DATA_OUT_OF_BOUNDS (R84, R265). -/
def State.withData (s : State) (n : Nat) (f : State → Result) : Result :=
  if dataInBounds s.index.toNat n then f s else s.raiseFatal .dataOutOfBounds

/-- The 2-byte fetch at PC, none when PC or PC + 1 is no valid address (R86). -/
def State.fetch (s : State) : Option Word :=
  if s.pc.toNat > 0xFFE then none
  else some (wordOfBytes (s.readByte s.pc.toNat) (s.readByte (s.pc.toNat + 1)))

/-! ### Call stack -/

/-- Push a return address, or take STACK_OVERFLOW when all 16 entries are in use (R40, R203, R262); then do `f`. -/
def State.push (s : State) (a : Word) (f : State → Result) : Result :=
  if h : s.sp.val < 16 then
    f { s with stack := s.stack.set s.sp.val a h, sp := ⟨s.sp.val + 1, by omega⟩ }
  else s.raiseFatal .stackOverflow

/-- Pop a return address, or take STACK_UNDERFLOW when the stack is empty; the entry keeps its value (R41, R204, R263); then do
`f`. -/
def State.pop (s : State) (f : Word → State → Result) : Result :=
  if h : 0 < s.sp.val then
    f (s.stack[s.sp.val - 1]'(by have := s.sp.isLt; omega)) { s with sp := ⟨s.sp.val - 1, by have := s.sp.isLt; omega⟩ }
  else s.raiseFatal .stackUnderflow

/-! ### Sound, keys and the random draw -/

/-- SoundCheck (R243): emit the tone's state exactly when it differs from the latch, and latch it. -/
def State.soundCheck (s : State) : State :=
  let on := decide (s.st ≠ 0)
  if on = s.soundOn then s else { s with soundOn := on }.emit (.soundStateChanged on)

/-- `key[k]` (R13, R47). -/
def State.keyPressed (s : State) (k : Reg) : Bool := s.keys[k.val]

/-- The byte of the next random draw, a free value (R166; log 7). -/
def State.nextRandom (s : State) : Byte := Config.randomByte s.draws

/-- The state with the next draw taken, so that the draw after it is a fresh one (R166). -/
def State.drawn (s : State) : State := { s with draws := s.draws + 1 }

/-! ### Unknown opcodes -/

/-- UNKNOWN (R109): the word at PC is no instruction; a diagnostic and PC + 2, nothing else. -/
def State.unknownOpcode (s : State) (w : Word) : Result := (s.emit (.diagnostic s.pc w)).done

end Sys2Proof.Machine
end

