-- ==== Sys2Proof/Machine/Operands.lean ====
section
/-! DEFINITION. The operand forms (spec 30_encoding.md R105, 40_load_store.md R137): what a field of the word or a register stands for when an
instruction uses it as an address, a key number, a digit or a coordinate. -/

namespace Sys2Proof.Machine

/-- `zext_16(nnn)` (R105). -/
def zextAddr (nnn : BitVec 12) : Word := nnn.setWidth 16

/-- The target of `Bnnn`: `zext_16(nnn) + zext_16(V[0])` (R202). -/
def State.jumpV0Target (s : State) (nnn : BitVec 12) : Word := zextAddr nnn + (s.getV 0).setWidth 16

/-- The return address that `2nnn` pushes: `(PC + 2) mod 2^16` (R203). -/
def State.returnAddress (s : State) : Word := s.pc + 2

/-- The base address of a data access: register-indirect through I (R137). -/
def State.dataBase (s : State) : Nat := s.index.toNat

/-- The key number of a key skip: the low 4 bits of Vx (R187). -/
def State.keyNumber (s : State) (x : Reg) : Reg := ((s.getV x).extractLsb' 0 4).toFin

/-- The digit of `Fx29`: `V[x] & 0x0F` (R133). -/
def State.digit (s : State) (x : Reg) : Nat := (s.getV x &&& 0x0F#8).toNat

/-- The address of the glyph of a digit: `FONT_BASE + 5 * d` (R133). -/
def glyphAddress (d : Nat) : Word := BitVec.ofNat 16 (fontBase + 5 * d)

/-- `(I + V[x]) mod 2^16` (R164). -/
def State.indexPlus (s : State) (x : Reg) : Word := s.index + (s.getV x).setWidth 16

/-- The start column of a sprite: `V[x] mod 64` (R222). -/
def State.spriteColumn (s : State) (x : Reg) : Nat := (s.getV x).toNat % 64

/-- The start row of a sprite: `V[y] mod 32` (R222). -/
def State.spriteRow (s : State) (y : Reg) : Nat := (s.getV y).toNat % 32

/-- The `n` rows of a sprite at I (R225). -/
def State.spriteRows (s : State) (n : Nat) : List Byte := s.mem.readBytes s.dataBase n

/-- The three decimal digits of a byte, hundreds first (R134). -/
def bcdDigits (b : Byte) : List Byte := [b / 100, (b / 10) % 10, b % 10]

/-- How many registers V0 to Vx are (R135, R136). -/
def regCount (x : Reg) : Nat := x.val + 1

/-- The values of V0 to Vx (R135). -/
def State.firstRegs (s : State) (x : Reg) : List Byte := s.v.toList.take (regCount x)

/-- V0 to Vx replaced by the bytes at I, I + 1, ..., I + x (R136). -/
def State.loadFirstRegs (s : State) (x : Reg) : State :=
  { s with v := Vector.ofFn fun j => if j ≤ x then s.readByte (s.dataBase + j.val) else s.getV j }

end Sys2Proof.Machine
end

