-- ==== Sys2Proof/Machine/ArithLogic.lean ====
section
/-! DEFINITION. Arithmetic, bitwise, index-add and random (spec 41_arith_logic.md). Operands are read from the state before
the instruction and the flag is written last (R150); `BitVec` arithmetic is modulo 2^8 or 2^16 (R151). -/

namespace Sys2Proof.Machine

/-- `7xkk` ADD Vx, kk: no flag (R152). -/
def execAddImm (x : Reg) (kk : Byte) (s : State) : Result := (s.setV x (s.getV x + kk)).done

/-- `8xy1` OR Vx, Vy (R153). -/
def execOr (x y : Reg) (s : State) : Result := (s.setV x (s.getV x ||| s.getV y)).done

/-- `8xy2` AND Vx, Vy (R154). -/
def execAnd (x y : Reg) (s : State) : Result := (s.setV x (s.getV x &&& s.getV y)).done

/-- `8xy3` XOR Vx, Vy (R155). -/
def execXor (x y : Reg) (s : State) : Result := (s.setV x (s.getV x ^^^ s.getV y)).done

/-- `8xy4` ADD Vx, Vy: VF = carry (R156). -/
def execAddReg (x y : Reg) (s : State) : Result :=
  (s.setVFlag x (s.getV x + s.getV y) (carryFlag (s.getV x) (s.getV y))).done

/-- `8xy5` SUB Vx, Vy: VF = not borrow (R157, R158). -/
def execSub (x y : Reg) (s : State) : Result :=
  (s.setVFlag x (s.getV x - s.getV y) (notBorrowFlag (s.getV x) (s.getV y))).done

/-- `8xy6` SHR Vx: VF = the bit shifted out; y is not read (R159, R160). -/
def execShr (x : Reg) (s : State) : Result :=
  (s.setVFlag x (s.getV x >>> 1) (shiftedOutRight (s.getV x))).done

/-- `8xy7` SUBN Vx, Vy: VF = not borrow (R158, R161). -/
def execSubn (x y : Reg) (s : State) : Result :=
  (s.setVFlag x (s.getV y - s.getV x) (notBorrowFlag (s.getV y) (s.getV x))).done

/-- `8xyE` SHL Vx: VF = the bit shifted out; y is not read (R159, R162). -/
def execShl (x : Reg) (s : State) : Result :=
  (s.setVFlag x (s.getV x <<< 1) (shiftedOutLeft (s.getV x))).done

/-- `Fx1E` ADD I, Vx: no flag, no bound (R164). -/
def execAddI (x : Reg) (s : State) : Result := (s.setIndex (s.indexPlus x)).done

/-- `Cxkk` RND Vx, kk: a fresh draw masked by kk (R165, R166). -/
def execRnd (x : Reg) (kk : Byte) (s : State) : Result := (s.drawn.setV x (s.nextRandom &&& kk)).done

end Sys2Proof.Machine
end

