-- ==== Sys2Proof/Machine/ControlTransfer.lean ====
section
/-! DEFINITION. Jumps, subroutine call and return (spec 43_control_transfer.md): absolute targets, taken unchecked (R200). -/

namespace Sys2Proof.Machine

/-- `1nnn` JP nnn (R201). -/
def execJp (nnn : BitVec 12) (s : State) : Result := .next (s.setPc (zextAddr nnn))

/-- `Bnnn` JP V0, nnn (R202). -/
def execJpV0 (nnn : BitVec 12) (s : State) : Result := .next (s.setPc (s.jumpV0Target nnn))

/-- `2nnn` CALL nnn: fatal when 16 entries are in use (R203). -/
def execCall (nnn : BitVec 12) (s : State) : Result :=
  s.push s.returnAddress fun s => .next (s.setPc (zextAddr nnn))

/-- `00EE` RET: fatal when the stack is empty (R204). -/
def execRet (s : State) : Result := s.pop fun a s => .next (s.setPc a)

end Sys2Proof.Machine
end

