-- ==== Sys2Proof/Machine/Display.lean ====
section
/-! DEFINITION. The display instructions (spec 44_display.md R224 to R226). -/

namespace Sys2Proof.Machine

/-- A new buffer contents: `display_dirty <- 1` and the `display_dirty` result, whether or not a pixel changed (R226). -/
def State.showDisplay (s : State) (d : Display) : State :=
  { s with disp := d, displayDirty := true }.emit .displayDirty

/-- `00E0` CLS (R224). -/
def execCls (s : State) : Result := (s.showDisplay Display.cleared).done

/-- The buffer and the collision bit of the sprite that `Dxyn` draws (R221, R225). -/
def State.drawSprite (s : State) (x y : Reg) (n : Nat) : Display × Bool :=
  s.disp.draw (s.spriteColumn x) (s.spriteRow y) (s.spriteRows n)

/-- `Dxyn` DRW Vx, Vy, n: the coordinates are read before VF gets the collision (R225). -/
def execDrw (x y : Reg) (n : Nat) (s : State) : Result :=
  s.withData n fun s =>
    ((s.setV regF (collisionFlag (s.drawSprite x y n).2)).showDisplay (s.drawSprite x y n).1).done

end Sys2Proof.Machine
end

