-- ==== Sys2Proof/Machine/LoadStore.lean ====
section
/-! DEFINITION. Register and memory load and store (spec 40_load_store.md). -/

namespace Sys2Proof.Machine

/-- `6xkk` LD Vx, kk (R130). -/
def execLdImm (x : Reg) (kk : Byte) (s : State) : Result := (s.setV x kk).done

/-- `8xy0` LD Vx, Vy (R131). -/
def execLdReg (x y : Reg) (s : State) : Result := (s.setV x (s.getV y)).done

/-- `Annn` LD I, nnn (R132). -/
def execLdI (nnn : BitVec 12) (s : State) : Result := (s.setIndex (zextAddr nnn)).done

/-- `Fx29` LD F, Vx (R133). -/
def execLdF (x : Reg) (s : State) : Result := (s.setIndex (glyphAddress (s.digit x))).done

/-- `Fx33` LD B, Vx (R134). -/
def execLdB (x : Reg) (s : State) : Result :=
  s.withData 3 fun s => (s.storeBytes s.dataBase (bcdDigits (s.getV x))).done

/-- `Fx55` LD [I], Vx (R135). -/
def execStoreRegs (x : Reg) (s : State) : Result :=
  s.withData (regCount x) fun s => (s.storeBytes s.dataBase (s.firstRegs x)).done

/-- `Fx65` LD Vx, [I] (R136). -/
def execLoadRegs (x : Reg) (s : State) : Result :=
  s.withData (regCount x) fun s => (s.loadFirstRegs x).done

end Sys2Proof.Machine
end

