-- ==== Sys2Proof/Machine/Skips.lean ====
section
/-! DEFINITION. Conditional skips (spec 42_skips.md): each evaluates its condition from the state before the instruction and
writes nothing but PC (R180). -/

namespace Sys2Proof.Machine

/-- `3xkk` SE Vx, kk (R181). -/
def execSeImm (x : Reg) (kk : Byte) (s : State) : Result := .next (s.skipIf (decide (s.getV x = kk)))

/-- `4xkk` SNE Vx, kk (R182). -/
def execSneImm (x : Reg) (kk : Byte) (s : State) : Result := .next (s.skipIf (decide (s.getV x ≠ kk)))

/-- `5xy0` SE Vx, Vy (R183). -/
def execSeReg (x y : Reg) (s : State) : Result := .next (s.skipIf (decide (s.getV x = s.getV y)))

/-- `9xy0` SNE Vx, Vy (R184). -/
def execSneReg (x y : Reg) (s : State) : Result := .next (s.skipIf (decide (s.getV x ≠ s.getV y)))

/-- `Ex9E` SKP Vx (R185). -/
def execSkp (x : Reg) (s : State) : Result := .next (s.skipIf (s.keyPressed (s.keyNumber x)))

/-- `ExA1` SKNP Vx (R186). -/
def execSknp (x : Reg) (s : State) : Result := .next (s.skipIf (!s.keyPressed (s.keyNumber x)))

end Sys2Proof.Machine
end

