-- ==== Sys2Proof/Machine/TimersInput.lean ====
section
/-! DEFINITION. Timer access and key wait (spec 45_timers_input.md R240 to R244). -/

namespace Sys2Proof.Machine

/-- `Fx07` LD Vx, DT (R240). -/
def execLdVxDt (x : Reg) (s : State) : Result := (s.setV x s.dt).done

/-- `Fx15` LD DT, Vx (R241). -/
def execLdDtVx (x : Reg) (s : State) : Result := { s with dt := s.getV x }.done

/-- `Fx18` LD ST, Vx, then SoundCheck (R242). -/
def execLdStVx (x : Reg) (s : State) : Result := ({ s with st := s.getV x }.soundCheck).done

/-- `Fx0A` LD Vx, K: set the key-wait latch; PC advances now and Vx is written when a key arrives (R244, R276). -/
def execLdVxK (x : Reg) (s : State) : Result :=
  ({ s with waitActive := true, waitReg := x }.emit (.enteredKeyWait x)).done

end Sys2Proof.Machine
end

