-- ==== Sys2Proof/Machine/Cycle.lean ====
section
/-! DEFINITION. The CPU step (spec 30_encoding.md R100): fetch, decode, execute. -/

namespace Sys2Proof.Machine

/-- Execute a fetched word: the instruction it decodes to, or the effect of an unknown opcode (R100, R107, R109). -/
def executeWord (w : Word) (s : State) : Result :=
  match decodeWord w with
  | some i => exec i s
  | none => s.unknownOpcode w

/-- One CPU step: the fetch check comes first, and a failed fetch decodes nothing (R100, R268). -/
def cpuStep (s : State) : Result :=
  match s.fetch with
  | some w => executeWord w s
  | none => s.raiseFatal .fetchOutOfBounds

/-- Step (b) of a tick with `left` CPU steps of the budget left: nothing left, the loop ends; a key-wait drops the rest of the
budget and the accumulated time; else one CPU step runs (R290, R293, R102). -/
def cpuPhase (left : Nat) (s : State) : Result :=
  match left with
  | 0 => .next { s with phase := .timers }
  | n + 1 =>
    if s.waitActive then .next { s with accCpu := 0, phase := .timers }
    else cpuStep { s with phase := .cpu n }

end Sys2Proof.Machine
end

