-- ==== Sys2Proof/Machine/Serializer.lean ====
section
/-! DEFINITION. The input controller, the timer subsystem, the serializer's tick and the host interface
(spec 60_exceptions.md, 70_reset_and_hazards.md), but for the CPU steps of a tick (Machine/Cycle.lean). -/

namespace Sys2Proof.Machine

/-! ### Input controller (R275, R276) -/

/-- The key an event names, none outside 0..15 (R275). -/
def keyIndex (k : Int) : Option Reg :=
  if h : 0 ≤ k ∧ k ≤ 15 then some ⟨k.toNat, by omega⟩ else none

/-- `key[k] <- b`. -/
def State.setKey (s : State) (k : Reg) (b : Bool) : State := { s with keys := s.keys.set k.val b }

/-- `key_down` completes a pending key-wait: the key number goes to V[wait_reg] (R276). -/
def State.completeWait (s : State) (k : Reg) : State :=
  if s.waitActive then { s.setV s.waitReg (BitVec.ofNat 8 k.val) with waitActive := false } else s

/-- `set_speed(r)`: `tick_rate <- min(max(r, 100), 3000)` (R302). -/
def State.setSpeed (s : State) (r : Int) : State := { s with tickRate := (min (max r 100) 3000).toNat }

/-- Apply one inbound event (R275, R276, R291, R302); a key outside 0..15 is discarded. -/
def State.applyEvent (s : State) (e : InEvent) : State :=
  match e with
  | .keyDown k =>
    match keyIndex k with
    | some k => (s.setKey k true).completeWait k
    | none => s
  | .keyUp k =>
    match keyIndex k with
    | some k => s.setKey k false
    | none => s
  | .setSpeed r => s.setSpeed r

/-- Step (a): apply every queued event, oldest first (R290, R291). -/
def State.drainInbound (s : State) : State := s.inq.foldl State.applyEvent { s with inq := [] }

/-! ### CPU budget (R292) -/

/-- The number of CPU steps of a tick and the time left in the accumulator (R292). -/
def State.budget (s : State) (elapsed : Rat) : Nat × Rat :=
  if s.waitActive then (0, 0)
  else
    let acc := s.accCpu + elapsed
    let n := (acc * s.tickRate).floor.toNat
    if n > maxStepsPerTick then (maxStepsPerTick, 0) else (n, acc - n / s.tickRate)

/-- The start of a tick: step (a), then the budget of step (b) (R290). What the host offers while the tick runs is queued behind
step (a), for the next tick (R291). -/
def State.beginTick (s : State) (elapsed : Rat) (during : List InEvent) : State :=
  let s := s.drainInbound
  let b := s.budget elapsed
  { s with accCpu := b.2, inq := during, elapsed := elapsed, results := [], fatal := none, phase := .cpu b.1 }

/-! ### Timer subsystem (R280 to R282) -/

/-- A timer one decrement later: it stays at 0 (R280). -/
def decrementTimer (t : Byte) : Byte := if t = 0 then 0 else t - 1

/-- One timer decrement, both timers together (R280). -/
def State.decrementTimers (s : State) : State := { s with dt := decrementTimer s.dt, st := decrementTimer s.st }

/-- `k` timer decrements. -/
def State.decrementTimersBy (s : State) : Nat → State
  | 0 => s
  | k + 1 => s.decrementTimers.decrementTimersBy k

/-- The number of decrements of a tick and the time left in the accumulator (R281). -/
def timerCount (acc elapsed : Rat) : Nat × Rat :=
  let a := acc + elapsed
  let k := (a * Config.timerHz).floor.toNat
  (k, a - k / Config.timerHz)

/-- Step (c): the decrements, then SoundCheck (R281, R282, R290). -/
def State.timerPhase (s : State) : State :=
  let c := timerCount s.accTimer s.elapsed
  { ({ s with accTimer := c.2 }.decrementTimersBy c.1).soundCheck with phase := .frame }

/-! ### Outbound events (R290 steps (d) and (e), R295, R296) -/

/-- Step (d): hand a copy of the buffer to the host if it is dirty (R290, R304). -/
def State.framePhase (s : State) : State :=
  if s.displayDirty then
    { s with outbound := s.outbound ++ [.frame s.disp.frame], displayDirty := false, phase := .events }
  else { s with phase := .events }

/-- The outbound event of a step result, if it has one (R290 step (e)). -/
def StepResult.outEvent : StepResult → Option OutEvent
  | .displayDirty => none
  | .enteredKeyWait x => some (.needKey x)
  | .soundStateChanged on => some (.sound on)
  | .diagnostic _ _ => none

/-- What a step result sends to the diagnostic port, if anything (R290 step (e), R308). -/
def StepResult.diagnosticOf : StepResult → Option Diagnostic
  | .displayDirty => none
  | .enteredKeyWait _ => none
  | .soundStateChanged _ => none
  | .diagnostic pc w => some ⟨pc, w⟩

/-- Emit the events of the tick's results, in order (R290 step (e), R296). -/
def State.forwardResults (s : State) : State :=
  { s with
    outbound := s.outbound ++ s.results.filterMap StepResult.outEvent
    diagnostics := s.diagnostics ++ s.results.filterMap StepResult.diagnosticOf
    results := [] }

/-- `emit halted(fatal); sched <- Halted` if the tick was fatal (R295). -/
def State.haltIfFatal (s : State) : State :=
  match s.fatal with
  | some r => { s with outbound := s.outbound ++ [.halted r], sched := .halted, haltReason := some r, fatal := none }
  | none => s

/-- Step (e), which ends the tick (R290). -/
def State.eventPhase (s : State) : State := { s.forwardResults.haltIfFatal with phase := .boundary }

/-! ### Host interface -/

/-- An event offered by the host (R300 to R302): queued while ticks run; in Idle and Halted a key event is discarded and a speed
is set at once (R297, R298). -/
def State.offer (s : State) (e : InEvent) : State :=
  match s.sched with
  | .running => { s with inq := s.inq ++ [e] }
  | .idle | .halted =>
    match e with
    | .keyDown _ => s
    | .keyUp _ => s
    | .setSpeed r => s.setSpeed r

/-- The load reset (R330) with the ROM `bytes`: every piece of state but the tick rate, which a load keeps; what the channels to
the host already carry stays (logs 13 to 15). -/
def State.loadReset (s : State) (bytes : List Byte) : State :=
  { s with
    mem := Memory.loaded bytes
    v := Vector.replicate 16 0, index := 0, pc := 0x200, sp := 0, stack := Vector.replicate 16 0
    dt := 0, st := 0, soundOn := false
    disp := Display.cleared, displayDirty := true
    keys := Vector.replicate 16 false, waitActive := false, waitReg := 0
    accCpu := 0, accTimer := 0
    inq := []
    sched := .running, haltReason := none
    phase := .boundary, elapsed := 0, results := [], fatal := none
    loadReply := some .ok }

/-- A load request (R303): a payload over 3584 bytes is rejected and changes nothing (R331). -/
def State.loadRom (s : State) (bytes : List Byte) : State :=
  if bytes.length > Config.maxRom then { s with loadReply := some .invalidROM } else s.loadReset bytes

/-- A tick boundary `time` seconds after the last one: a tick starts if `sched` is Running; in Idle and Halted nothing does, and
the events offered are taken as such (R290, R295, R297, R298). -/
def State.elapse (s : State) (time : Rat) (during : List InEvent) : State :=
  match s.sched with
  | .running => s.beginTick time during
  | .idle | .halted => during.foldl State.offer s

/-- Whether an outbound event is a frame. -/
def OutEvent.isFrame : OutEvent → Bool
  | .frame _ => true
  | .needKey _ => false
  | .sound _ => false
  | .halted _ => false

/-- The channel without its event number `n`, if that is a frame and a later frame follows; else the channel as it is: the
liberty of coalescing (R296). -/
def dropFrameAt : Nat → List OutEvent → List OutEvent
  | _, [] => []
  | 0, e :: rest => if e.isFrame && rest.any OutEvent.isFrame then rest else e :: rest
  | n + 1, e :: rest => e :: dropFrameAt n rest

/-- "Session teardown cancels the scheduling loop and discards VM state" (R299): the machine's state is that of a new session,
the loop is over, nothing is emitted. DESIGN CHOICE (log 12). -/
def State.teardown (s : State) : State :=
  { State.created with
    tornDown := true
    outbound := s.outbound, diagnostics := s.diagnostics, loadReply := s.loadReply
    draws := s.draws, host := s.host }

/-- What an input of the host does. -/
def State.applyInput (s : State) (i : HostInput) : State :=
  match i with
  | .offer e => s.offer e
  | .load bytes => s.loadRom bytes
  | .elapse time during => s.elapse time during
  | .accept => { s with outbound := s.outbound.tail }
  | .dropFrame n => { s with outbound := dropFrameAt n s.outbound }
  | .teardown => s.teardown
  | .teardownBetweenSteps _ => s.teardown

/-- Take the host's next input; while it offers none, the block waits (log 9). -/
def State.takeInput (s : State) : State :=
  match s.host with
  | [] => s
  | i :: rest => { s with host := rest }.applyInput i

end Sys2Proof.Machine
end

