-- ==== Sys2Proof/Machine/Step.lean ====
section
/-! DEFINITION. One step of the block: the next action of the agent whose turn it is (spec 00_scope.md R8, 60_exceptions.md
R290), and where the next instruction is fetched. -/

namespace Sys2Proof.Machine

/-- Whether the host ends the session between two steps, now that `left` CPU steps of the tick are left (R299). -/
def State.teardownDue (s : State) (left : Nat) : Bool := decide (s.host.head? = some (.teardownBetweenSteps left))

/-- One step. A torn-down session has none (R299). While `sched` is Running the tick goes on from where it stands (R290): a CPU
step, the timer phase, the frame, the events; between ticks, and always in Idle and Halted (R295, R297), the host's next input
is taken; between two CPU steps a teardown that is due there is (R299). -/
def step (s : State) : Host.Outcome State Fault Refusal :=
  if s.tornDown then .fault .tornDown
  else
    match s.sched, s.phase with
    | .running, .cpu left => if s.teardownDue left then .next s.takeInput else cpuPhase left s
    | .running, .timers => .next s.timerPhase
    | .running, .frame => .next s.framePhase
    | .running, .events => .next s.eventPhase
    | .running, .boundary => .next s.takeInput
    | .idle, _ => .next s.takeInput
    | .halted, _ => .next s.takeInput

/-- The address where the next instruction is fetched; PC, or 0x200 where PC has no fetch (R86; log 19). -/
def State.fetchPoint (s : State) : Word := if s.pc.toNat > 0xFFE then 0x200#16 else s.pc

/-- The phase in which the next step is a CPU step. -/
def Phase.withCpuStep : Phase → Phase
  | .cpu (n + 1) => .cpu (n + 1)
  | .cpu 0 | .boundary | .timers | .frame | .events => .cpu 1

/-- Whether an input is a teardown between two steps. -/
def HostInput.isTeardownBetweenSteps : HostInput → Bool
  | .teardownBetweenSteps _ => true
  | .offer _ | .load _ | .elapse _ _ | .accept | .dropFrame _ | .teardown => false

/-- The state with an instruction word, numbered as the opcode table numbers it, stored where `step` fetches its next
instruction, and with everything that makes the very next step fetch and run it: a live, running session in step (b) of a tick
with a CPU step left, no key-wait, no teardown due between two steps, a PC that has a fetch (logs 2 and 19). -/
def State.withFetchWord (s : State) (nbits w : Nat) : State :=
  let word : Word := BitVec.ofNat 16 (w % 2 ^ nbits)
  { s with
    pc := s.fetchPoint
    mem := s.mem.writeBytes s.fetchPoint.toNat [hiByte word, loByte word]
    sched := .running, waitActive := false, tornDown := false
    phase := s.phase.withCpuStep
    host := s.host.dropWhile HostInput.isTeardownBetweenSteps }

end Sys2Proof.Machine
end

