-- ==== Sys2Proof/Safety.lean ====
section
/-! DEFINITION. What counts as a state of the block, and the words the claims are written with: the invariant that every step
keeps, the unknown words of spec 30_encoding.md R108, the pixels of a sprite (44_display.md R221), the runs of a CPU or of the timers. -/

namespace Sys2Proof.Machine

/-- What holds of the block between any two steps, whatever the program and the host do. -/
structure State.Inv (s : State) : Prop where
  /-- Memory is in its canonical form. -/
  memWf : s.mem.wf = true
  /-- `tick_rate` lies in [100, 3000] (R50). -/
  rate : Config.minTickRate ≤ s.tickRate ∧ s.tickRate ≤ Config.maxTickRate
  /-- `acc_cpu` is not negative (R51). -/
  accCpu : 0 ≤ s.accCpu
  /-- `acc_timer` is not negative and holds less than one decrement (R51, R281). -/
  accTimer : 0 ≤ s.accTimer ∧ s.accTimer * Config.timerHz < 1
  /-- The wall time of a tick is not negative (R309). -/
  elapsed : 0 ≤ s.elapsed
  /-- So are the wall times the host will supply (R309). -/
  hostTime : ∀ time during, HostInput.elapse time during ∈ s.host → 0 ≤ time
  /-- The sound latch says whether the tone is on (R43, R44). -/
  sound : s.soundOn = decide (s.st ≠ 0)
  /-- The largest PC a step can write is 0x10FE (R39). -/
  pcBound : s.pc.toNat ≤ 0x10FE
  /-- A return address is at most 0xFFE + 2 (R86, R203). -/
  stackBound : ∀ j : Fin 16, (s.stack[j.val]).toNat ≤ 0x1000
  /-- A tick is in progress only while Running (R290). -/
  tick : s.phase ≠ .boundary → s.sched = .running
  /-- A halt reason is held exactly in Halted (R49). -/
  halt : s.sched = .halted ↔ s.haltReason ≠ none
  /-- A tick with a fatal reason has left its CPU steps and skips its timers (R290, R295). -/
  fatalPhase : s.fatal ≠ none → s.phase = .frame ∨ s.phase = .events
  /-- No result waits between two ticks (R290). -/
  noResults : s.phase = .boundary → s.results = []
  /-- The CPU steps left are within the cap (R292). -/
  budgetCap : ∀ n, s.phase = .cpu n → n ≤ maxStepsPerTick

/-- A live session in which no tick is in progress: the next step takes the host's next input (R290, R295, R297). -/
def State.betweenTicks (s : State) : Prop := s.tornDown = false ∧ (s.sched ≠ .running ∨ s.phase = .boundary)

/-! ### Frames -/

/-- Every byte of memory reads as before. -/
def SameMemory (s t : State) : Prop := ∀ a, t.readByte a = s.readByte a

/-- Every byte of memory outside the `n` bytes from `base` reads as before. -/
def SameMemoryOutside (base n : Nat) (s t : State) : Prop := ∀ a, (a < base ∨ base + n ≤ a) → t.readByte a = s.readByte a

/-- Every general register but those that `p` names is as before. -/
def SameVExcept (p : Reg → Prop) (s t : State) : Prop := ∀ r, ¬p r → t.getV r = s.getV r

/-- The state after a fatal condition (R260, R267): nothing of the machine changed, the tick has its reason and goes on at
step (d). -/
def State.fatalled (s : State) (r : HaltReason) : State := { s with fatal := some r, phase := .frame }

/-! ### Unknown words -/

/-- The words that R108 lists, row by row. -/
def UnknownWord (w : Word) : Prop :=
  ((opOf w).toNat = 0x0 ∧ w ≠ 0x00E0#16 ∧ w ≠ 0x00EE#16) ∨
  ((opOf w).toNat = 0x5 ∧ (nOf w).toNat ≠ 0) ∨
  ((opOf w).toNat = 0x8 ∧ (nOf w).toNat ∈ [0x8, 0x9, 0xA, 0xB, 0xC, 0xD, 0xF]) ∨
  ((opOf w).toNat = 0x9 ∧ (nOf w).toNat ≠ 0) ∨
  ((opOf w).toNat = 0xE ∧ (kkOf w).toNat ∉ [0x9E, 0xA1]) ∨
  ((opOf w).toNat = 0xF ∧ (kkOf w).toNat ∉ [0x07, 0x0A, 0x15, 0x18, 0x1E, 0x29, 0x33, 0x55, 0x65])

/-- How many words of one primary opcode decode to no instruction. -/
def unknownCount (op : Nat) : Nat :=
  (List.range 0x1000).countP fun k => (decodeWord (BitVec.ofNat 16 (op * 0x1000 + k))).isNone

/-! ### Sprites -/

/-- Whether a sprite placed at (x0, y0) has a set bit for the pixel in column `x`, row `y`: bit 7 - b of row r is the pixel at
column x0 + b, row y0 + r (R221). -/
def spriteBit (x0 y0 : Nat) (rows : List Byte) (x y : Nat) : Bool :=
  decide (x0 ≤ x ∧ x < x0 + 8 ∧ y0 ≤ y ∧ y < y0 + rows.length) &&
    (rows.getD (y - y0) 0).getLsbD (7 - (x - x0))

/-! ### Sound events -/

/-- The sound states among the results of a tick, in order. -/
def soundsOf : List StepResult → List Bool
  | [] => []
  | .soundStateChanged on :: rs => on :: soundsOf rs
  | .displayDirty :: rs => soundsOf rs
  | .enteredKeyWait _ :: rs => soundsOf rs
  | .diagnostic _ _ :: rs => soundsOf rs

/-! ### What a tick sends -/

/-- The events that the results of a tick send to the host, in order (R290 step (e), R305, R306). -/
def eventsOf : List StepResult → List OutEvent
  | [] => []
  | .enteredKeyWait x :: rs => .needKey x :: eventsOf rs
  | .soundStateChanged on :: rs => .sound on :: eventsOf rs
  | .displayDirty :: rs => eventsOf rs
  | .diagnostic _ _ :: rs => eventsOf rs

/-- What the results of a tick send to the diagnostic port, in order (R290 step (e), R308). -/
def diagnosticsOf : List StepResult → List Diagnostic
  | [] => []
  | .diagnostic pc w :: rs => ⟨pc, w⟩ :: diagnosticsOf rs
  | .enteredKeyWait _ :: rs => diagnosticsOf rs
  | .soundStateChanged _ :: rs => diagnosticsOf rs
  | .displayDirty :: rs => diagnosticsOf rs

/-- The frames of a channel, in order. -/
def framesOf (es : List OutEvent) : List OutEvent := es.filter OutEvent.isFrame

/-- The events of a channel that are no frames, in order: those that "must never be dropped or duplicated" (R296). -/
def notificationsOf (es : List OutEvent) : List OutEvent := es.filter fun e => !e.isFrame

/-! ### Timers over several ticks -/

/-- The decrements that ticks of these wall times make in all, from an accumulator (R281). -/
def totalDecrements (acc : Rat) : List Rat → Nat
  | [] => 0
  | t :: ts => (timerCount acc t).1 + totalDecrements (timerCount acc t).2 ts

/-! ### Where an instruction writes -/

/-- The general registers an instruction may write (R32). -/
def writesV : Instr → Reg → Prop
  | .ldImm x _, r | .addImm x _, r | .ldReg x _, r | .orReg x _, r | .andReg x _, r | .xorReg x _, r
  | .rnd x _, r | .ldVxDt x, r => r = x
  | .addReg x _, r | .sub x _, r | .shr x _, r | .subn x _, r | .shl x _, r => r = x ∨ r = regF
  | .drw _ _ _, r => r = regF
  | .loadRegs x, r => r ≤ x
  | .cls, _ | .ret, _ | .jp _, _ | .call _, _ | .seImm _ _, _ | .sneImm _ _, _ | .seReg _ _, _ | .sneReg _ _, _
  | .ldI _, _ | .jpV0 _, _ | .skp _, _ | .sknp _, _ | .ldVxK _, _ | .ldDtVx _, _ | .ldStVx _, _ | .addI _, _
  | .ldF _, _ | .ldB _, _ | .storeRegs _, _ => False

/-- The number of bytes from I that an instruction stores (R81, R137). -/
def storedBytes : Instr → Nat
  | .ldB _ => 3
  | .storeRegs x => x.val + 1
  | .cls | .ret | .jp _ | .call _ | .seImm _ _ | .sneImm _ _ | .seReg _ _ | .ldImm _ _ | .addImm _ _ | .ldReg _ _
  | .orReg _ _ | .andReg _ _ | .xorReg _ _ | .addReg _ _ | .sub _ _ | .shr _ _ | .subn _ _ | .shl _ _ | .sneReg _ _
  | .ldI _ | .jpV0 _ | .rnd _ _ | .drw _ _ _ | .skp _ | .sknp _ | .ldVxDt _ | .ldVxK _ | .ldDtVx _ | .ldStVx _
  | .addI _ | .ldF _ | .loadRegs _ => 0

/-- The number of bytes from I that an instruction accesses as data (R81, R137). -/
def dataBytes : Instr → Nat
  | .drw _ _ n => n
  | .ldB _ => 3
  | .storeRegs x | .loadRegs x => x.val + 1
  | .cls | .ret | .jp _ | .call _ | .seImm _ _ | .sneImm _ _ | .seReg _ _ | .ldImm _ _ | .addImm _ _ | .ldReg _ _
  | .orReg _ _ | .andReg _ _ | .xorReg _ _ | .addReg _ _ | .sub _ _ | .shr _ _ | .subn _ _ | .shl _ _ | .sneReg _ _
  | .ldI _ | .jpV0 _ | .rnd _ _ | .skp _ | .sknp _ | .ldVxDt _ | .ldVxK _ | .ldDtVx _ | .ldStVx _
  | .addI _ | .ldF _ => 0

/-- The instructions that set PC themselves: jumps, call, return and skips (R37). -/
def setsPc : Instr → Bool
  | .jp _ | .jpV0 _ | .call _ | .ret => true
  | .seImm _ _ | .sneImm _ _ | .seReg _ _ | .sneReg _ _ | .skp _ | .sknp _ => true
  | .cls | .ldImm _ _ | .addImm _ _ | .ldReg _ _ | .orReg _ _ | .andReg _ _ | .xorReg _ _ | .addReg _ _ | .sub _ _
  | .shr _ _ | .subn _ _ | .shl _ _ | .ldI _ | .rnd _ _ | .drw _ _ _ | .ldVxDt _ | .ldVxK _ | .ldDtVx _ | .ldStVx _
  | .addI _ | .ldF _ | .ldB _ | .storeRegs _ | .loadRegs _ => false

end Sys2Proof.Machine
end

