-- ==== Sys2Proof/Certificates/Slice0/Obligations.lean ====
section
/-! DEFINITION. The statements for the provers, from the numbered rules of spec/. A frame is written as an equation between the
next state and the old one in which only the named fields may differ. `State.fatalled` is how the model holds a fatal result of
R260: the tick's reason is recorded and the tick goes on at step (d), nothing else changes (logs 10 and 11). How a tick is cut into
steps (log 10), that the host's inputs are the field `host` and where they are taken (log 9), and the form of the outbound channel,
of the diagnostic port and of a load's answer (logs 13 to 15) are the model's choice wherever a statement speaks of them. -/

open Sys2Proof Sys2Proof.Machine

/-! ### Encoding -/

/-- Decoding the encoding of a well-formed instruction gives it back, as a word and as bytes in front of any others
(R103, R104, R105, R107). -/
def Obligations.DecodeOfEncodeIsTheInstruction : Prop :=
  ∀ i : Instr, i.wellFormed = true →
    decodeWord (encodeWord i) = some i ∧ ∀ rest : List Byte, decode (encode i ++ rest) = .ok (i, rest)

/-- A word that decodes is the encoding of the instruction it decodes to, which is well formed: no word of the table has a bit
that the decoder drops (R104, R107). -/
def Obligations.EncodeOfDecodeIsTheWord : Prop :=
  ∀ (w : Word) (i : Instr), decodeWord w = some i → i.wellFormed = true ∧ encodeWord i = w

/-- The words that decode to no instruction are those of R108, row by row, as many as it counts. -/
def Obligations.UndecodedWordsAreTheUnknownWords : Prop :=
  (∀ w : Word, decodeWord w = none ↔ UnknownWord w) ∧
  unknownCount 0x0 = 4094 ∧ unknownCount 0x5 = 3840 ∧ unknownCount 0x8 = 1792 ∧ unknownCount 0x9 = 3840 ∧
  unknownCount 0xE = 4064 ∧ unknownCount 0xF = 3952 ∧
  (∀ op ∈ [0x1, 0x2, 0x3, 0x4, 0x6, 0x7, 0xA, 0xB, 0xC, 0xD], unknownCount op = 0)

/-- Words written out from the encodings of R107 decode to the instructions they stand for. -/
def Obligations.SampleWordsDecode : Prop :=
  decodeWord 0x00E0#16 = some .cls ∧ decodeWord 0x00EE#16 = some .ret ∧ decodeWord 0x1234#16 = some (.jp 0x234#12) ∧
  decodeWord 0x3142#16 = some (.seImm 1 0x42#8) ∧ decodeWord 0x6A2B#16 = some (.ldImm 0xA 0x2B#8) ∧
  decodeWord 0x8AB4#16 = some (.addReg 0xA 0xB) ∧ decodeWord 0x8346#16 = some (.shr 3 4) ∧
  decodeWord 0xD015#16 = some (.drw 0 1 5) ∧ decodeWord 0xE19E#16 = some (.skp 1) ∧ decodeWord 0xF20A#16 = some (.ldVxK 2) ∧
  decodeWord 0xF265#16 = some (.loadRegs 2)

/-! ### The CPU step -/

/-- In step (b) of a tick, with a CPU step left, no key-wait, no teardown due at this point and a PC that has a fetch: when the two
bytes at PC decode to an instruction, the step is `exec` of it, with one step less left in the budget (R86, R100, R102, R292). -/
def Obligations.StepRunsTheDecodedInstruction : Prop :=
  ∀ (s : State) (n : Nat) (i : Instr), s.tornDown = false → s.sched = .running → s.phase = .cpu (n + 1) →
    s.host.head? ≠ some (.teardownBetweenSteps (n + 1)) → s.waitActive = false → s.pc.toNat ≤ 0xFFE →
    decode [s.readByte s.pc.toNat, s.readByte (s.pc.toNat + 1)] = .ok (i, []) →
    step s = exec i { s with phase := .cpu n }

/-- The fetch reads the word at PC, the byte at PC its most significant byte, at odd and even PC alike; above 0xFFE there is none,
and the step changes nothing and records FETCH_OUT_OF_BOUNDS (R86, R87, R88, R264, R268). -/
def Obligations.FetchIsBigEndianOrFatal : Prop :=
  ∀ s : State,
    (s.pc.toNat ≤ 0xFFE → ∃ w, s.fetch = some w ∧
      w.toNat = (s.readByte s.pc.toNat).toNat * 256 + (s.readByte (s.pc.toNat + 1)).toNat) ∧
    (0xFFE < s.pc.toNat → ∀ n, s.tornDown = false → s.sched = .running → s.phase = .cpu (n + 1) →
      s.host.head? ≠ some (.teardownBetweenSteps (n + 1)) → s.waitActive = false →
      step s = .next (s.fatalled .fetchOutOfBounds))

/-- A word that decodes to no instruction is a no-op that advances PC by 2 and raises a diagnostic with its address and itself
(R109, R266). -/
def Obligations.UnknownOpcodeOnlyRaisesADiagnostic : Prop :=
  ∀ (s : State) (n : Nat) (w : Word), s.tornDown = false → s.sched = .running → s.phase = .cpu (n + 1) →
    s.host.head? ≠ some (.teardownBetweenSteps (n + 1)) → s.waitActive = false → s.pc.toNat ≤ 0xFFE →
    decode [s.readByte s.pc.toNat, s.readByte (s.pc.toNat + 1)] = .error (.unknownOpcode w) →
    step s = .next { s with phase := .cpu n, pc := s.pc + 2, results := s.results ++ [.diagnostic s.pc w] }

/-- While a key-wait is active no instruction runs: step (b) ends and the rest of the budget is dropped. With the budget spent,
in a key-wait or not, step (b) ends as well, and nothing else changes (R102, R290, R293). -/
def Obligations.KeyWaitRunsNoInstruction : Prop :=
  ∀ (s : State) (n : Nat), s.tornDown = false → s.sched = .running → s.phase = .cpu n →
    s.host.head? ≠ some (.teardownBetweenSteps n) →
    (n ≠ 0 → s.waitActive = true → step s = .next { s with accCpu := 0, phase := .timers }) ∧
    (n = 0 → step s = .next { s with phase := .timers })

/-- A step never refuses, and faults exactly when the session was torn down: there is a next state for every word and every
state. A teardown, at whatever point of whatever state, sends nothing and is followed by no step; the host's teardown takes effect
at a tick boundary, or between two steps of a tick, in the place it names (R110, R299). That the end of a session is a fault
outcome is the model's choice (log 12), and so is the form in which the host says where in a tick a teardown falls (log 9). -/
def Obligations.StepFaultsOnlyAfterTeardown : Prop :=
  ∀ s : State, (∀ r, step s ≠ .refused r) ∧ (s.tornDown = true → step s = .fault .tornDown) ∧
    (s.tornDown = false → ∃ t, step s = .next t) ∧
    step s.teardown = .fault .tornDown ∧ s.teardown.outbound = s.outbound ∧ s.teardown.diagnostics = s.diagnostics ∧
    (∀ rest, s.betweenTicks → s.host = .teardown :: rest → step s = .next ({ s with host := rest }.teardown)) ∧
    (∀ k rest, s.betweenTicks → s.host = .teardownBetweenSteps k :: rest →
      step s = .next ({ s with host := rest }.teardown)) ∧
    (∀ n rest, s.tornDown = false → s.sched = .running → s.phase = .cpu n → s.host = .teardownBetweenSteps n :: rest →
      step s = .next ({ s with host := rest }.teardown))

/-! ### Load and store -/

/-- `6xkk` (R130). -/
def Obligations.LoadImmediate : Prop :=
  ∀ (x : Reg) (kk : Byte) (s : State), ∃ t, exec (.ldImm x kk) s = .next t ∧
    t.getV x = kk ∧ SameVExcept (· = x) s t ∧ t.pc = s.pc + 2 ∧ SameMemory s t ∧
    t = { s with v := t.v, pc := t.pc }

/-- `8xy0` (R131). -/
def Obligations.CopyRegister : Prop :=
  ∀ (x y : Reg) (s : State), ∃ t, exec (.ldReg x y) s = .next t ∧
    t.getV x = s.getV y ∧ SameVExcept (· = x) s t ∧ t.pc = s.pc + 2 ∧ SameMemory s t ∧
    t = { s with v := t.v, pc := t.pc }

/-- `Annn` (R132). -/
def Obligations.LoadIndex : Prop :=
  ∀ (nnn : BitVec 12) (s : State), ∃ t, exec (.ldI nnn) s = .next t ∧
    t.index.toNat = nnn.toNat ∧ t.pc = s.pc + 2 ∧ SameMemory s t ∧ t = { s with index := t.index, pc := t.pc }

/-- `Fx29`: the glyph of the low nibble of Vx, always inside the font table (R133). -/
def Obligations.FontGlyphAddress : Prop :=
  ∀ (x : Reg) (s : State), ∃ t, exec (.ldF x) s = .next t ∧
    t.index.toNat = fontBase + 5 * ((s.getV x).toNat % 16) ∧ t.index.toNat + 5 ≤ fontBase + 80 ∧
    t.pc = s.pc + 2 ∧ SameMemory s t ∧ t = { s with index := t.index, pc := t.pc }

/-- `Fx33` in bounds: the decimal digits of Vx at I, I + 1, I + 2, hundreds first, and no other byte; with I + 2 above 0xFFF it
is fatal (R134). -/
def Obligations.BcdStore : Prop :=
  ∀ (x : Reg) (s : State),
    (s.index.toNat + 2 ≤ 0xFFF → ∃ t, exec (.ldB x) s = .next t ∧
      (t.readByte s.index.toNat).toNat = (s.getV x).toNat / 100 ∧
      (t.readByte (s.index.toNat + 1)).toNat = (s.getV x).toNat / 10 % 10 ∧
      (t.readByte (s.index.toNat + 2)).toNat = (s.getV x).toNat % 10 ∧
      SameMemoryOutside s.index.toNat 3 s t ∧ t.pc = s.pc + 2 ∧ t = { s with mem := t.mem, pc := t.pc }) ∧
    (0xFFF < s.index.toNat + 2 → exec (.ldB x) s = .next (s.fatalled .dataOutOfBounds))

/-- `Fx55` in bounds: V0 to Vx at I to I + x, and no other byte; I unchanged; with I + x above 0xFFF it is fatal (R135). -/
def Obligations.StoreRegisters : Prop :=
  ∀ (x : Reg) (s : State),
    (s.index.toNat + x.val ≤ 0xFFF → ∃ t, exec (.storeRegs x) s = .next t ∧
      (∀ r : Reg, r ≤ x → t.readByte (s.index.toNat + r.val) = s.getV r) ∧
      SameMemoryOutside s.index.toNat (x.val + 1) s t ∧ t.pc = s.pc + 2 ∧ t = { s with mem := t.mem, pc := t.pc }) ∧
    (0xFFF < s.index.toNat + x.val → exec (.storeRegs x) s = .next (s.fatalled .dataOutOfBounds))

/-- `Fx65` in bounds: V0 to Vx from I to I + x, the other registers and I unchanged; with I + x above 0xFFF it is fatal (R136). -/
def Obligations.LoadRegisters : Prop :=
  ∀ (x : Reg) (s : State),
    (s.index.toNat + x.val ≤ 0xFFF → ∃ t, exec (.loadRegs x) s = .next t ∧
      (∀ r : Reg, r ≤ x → t.getV r = s.readByte (s.index.toNat + r.val)) ∧
      SameVExcept (· ≤ x) s t ∧ t.pc = s.pc + 2 ∧ SameMemory s t ∧ t = { s with v := t.v, pc := t.pc }) ∧
    (0xFFF < s.index.toNat + x.val → exec (.loadRegs x) s = .next (s.fatalled .dataOutOfBounds))

/-- `Dxyn`, `Fx33`, `Fx55` and `Fx65` with any of their addresses above 0xFFF change nothing and record DATA_OUT_OF_BOUNDS
(R84, R265, R267). -/
def Obligations.DataAccessAboveTheEndIsFatal : Prop :=
  ∀ (i : Instr) (s : State), (∃ k, k < dataBytes i ∧ 0xFFF < s.index.toNat + k) →
    exec i s = .next (s.fatalled .dataOutOfBounds)

/-- A byte that `Fx55` stores is seen by the very next fetch: if it overwrites the instruction that follows it, the next step
runs the new one (R95, R341). -/
def Obligations.StoredCodeRunsAtTheNextStep : Prop :=
  ∀ (s : State) (n : Nat) (x : Reg) (j : Instr) (p q : Reg), s.tornDown = false → s.sched = .running →
    s.phase = .cpu (n + 2) → s.host.head? ≠ some (.teardownBetweenSteps (n + 2)) →
    s.host.head? ≠ some (.teardownBetweenSteps (n + 1)) → s.waitActive = false → s.pc.toNat + 3 ≤ 0xFFF →
    decode [s.readByte s.pc.toNat, s.readByte (s.pc.toNat + 1)] = .ok (.storeRegs x, []) →
    s.index.toNat + x.val ≤ 0xFFF → p ≤ x → q ≤ x →
    s.index.toNat + p.val = s.pc.toNat + 2 → s.index.toNat + q.val = s.pc.toNat + 3 →
    decode [s.getV p, s.getV q] = .ok (j, []) →
    ∃ t, step s = .next t ∧ t.pc = s.pc + 2 ∧ step t = exec j { t with phase := .cpu n }

/-! ### Arithmetic and logic -/

/-- `7xkk`: modulo 256, no flag (R152). -/
def Obligations.AddImmediate : Prop :=
  ∀ (x : Reg) (kk : Byte) (s : State), ∃ t, exec (.addImm x kk) s = .next t ∧
    (t.getV x).toNat = ((s.getV x).toNat + kk.toNat) % 256 ∧ SameVExcept (· = x) s t ∧
    t.pc = s.pc + 2 ∧ SameMemory s t ∧ t = { s with v := t.v, pc := t.pc }

/-- `8xy1`, `8xy2`, `8xy3`: bit by bit, no flag (R153, R154, R155). -/
def Obligations.BitwiseOperations : Prop :=
  ∀ (x y : Reg) (s : State),
    (∃ t, exec (.orReg x y) s = .next t ∧
      (∀ b, b < 8 → (t.getV x).getLsbD b = ((s.getV x).getLsbD b || (s.getV y).getLsbD b)) ∧
      SameVExcept (· = x) s t ∧ t.pc = s.pc + 2 ∧ SameMemory s t ∧ t = { s with v := t.v, pc := t.pc }) ∧
    (∃ t, exec (.andReg x y) s = .next t ∧
      (∀ b, b < 8 → (t.getV x).getLsbD b = ((s.getV x).getLsbD b && (s.getV y).getLsbD b)) ∧
      SameVExcept (· = x) s t ∧ t.pc = s.pc + 2 ∧ SameMemory s t ∧ t = { s with v := t.v, pc := t.pc }) ∧
    (∃ t, exec (.xorReg x y) s = .next t ∧
      (∀ b, b < 8 → (t.getV x).getLsbD b = ((s.getV x).getLsbD b ^^ (s.getV y).getLsbD b)) ∧
      SameVExcept (· = x) s t ∧ t.pc = s.pc + 2 ∧ SameMemory s t ∧ t = { s with v := t.v, pc := t.pc })

/-- `8xy4`: the sum modulo 256 in Vx, unless x = F, and the carry in VF (R150, R156). -/
def Obligations.AddWithCarry : Prop :=
  ∀ (x y : Reg) (s : State), ∃ t, exec (.addReg x y) s = .next t ∧
    (x ≠ regF → (t.getV x).toNat = ((s.getV x).toNat + (s.getV y).toNat) % 256) ∧
    (t.getV regF).toNat = (if 255 < (s.getV x).toNat + (s.getV y).toNat then 1 else 0) ∧
    SameVExcept (fun r => r = x ∨ r = regF) s t ∧ t.pc = s.pc + 2 ∧ SameMemory s t ∧
    t = { s with v := t.v, pc := t.pc }

/-- `8xy5` and `8xy7`: the difference modulo 256 in Vx, unless x = F, and in VF 1 when minuend ≥ subtrahend, else 0
(R150, R157, R158, R161). -/
def Obligations.SubtractWithNotBorrow : Prop :=
  ∀ (x y : Reg) (s : State),
    (∃ t, exec (.sub x y) s = .next t ∧
      (x ≠ regF → (t.getV x).toNat = ((s.getV x).toNat + 256 - (s.getV y).toNat) % 256) ∧
      (t.getV regF).toNat = (if (s.getV y).toNat ≤ (s.getV x).toNat then 1 else 0) ∧
      SameVExcept (fun r => r = x ∨ r = regF) s t ∧ t.pc = s.pc + 2 ∧ SameMemory s t ∧
      t = { s with v := t.v, pc := t.pc }) ∧
    (∃ t, exec (.subn x y) s = .next t ∧
      (x ≠ regF → (t.getV x).toNat = ((s.getV y).toNat + 256 - (s.getV x).toNat) % 256) ∧
      (t.getV regF).toNat = (if (s.getV x).toNat ≤ (s.getV y).toNat then 1 else 0) ∧
      SameVExcept (fun r => r = x ∨ r = regF) s t ∧ t.pc = s.pc + 2 ∧ SameMemory s t ∧
      t = { s with v := t.v, pc := t.pc })

/-- `8xy6` and `8xyE` shift Vx itself by one, whatever y is, and put the bit shifted out in VF (R150, R159, R160, R162). -/
def Obligations.ShiftsActOnTheDestination : Prop :=
  ∀ (x y : Reg) (s : State),
    (∃ t, (∀ y', exec (.shr x y') s = exec (.shr x y) s) ∧ exec (.shr x y) s = .next t ∧
      (x ≠ regF → (t.getV x).toNat = (s.getV x).toNat / 2) ∧ (t.getV regF).toNat = (s.getV x).toNat % 2 ∧
      SameVExcept (fun r => r = x ∨ r = regF) s t ∧ t.pc = s.pc + 2 ∧ SameMemory s t ∧
      t = { s with v := t.v, pc := t.pc }) ∧
    (∃ t, (∀ y', exec (.shl x y') s = exec (.shl x y) s) ∧ exec (.shl x y) s = .next t ∧
      (x ≠ regF → (t.getV x).toNat = (s.getV x).toNat * 2 % 256) ∧ (t.getV regF).toNat = (s.getV x).toNat / 128 ∧
      SameVExcept (fun r => r = x ∨ r = regF) s t ∧ t.pc = s.pc + 2 ∧ SameMemory s t ∧
      t = { s with v := t.v, pc := t.pc })

/-- `Fx1E`: modulo 2^16, no flag, no bound (R164). -/
def Obligations.IndexAdd : Prop :=
  ∀ (x : Reg) (s : State), ∃ t, exec (.addI x) s = .next t ∧
    t.index.toNat = (s.index.toNat + (s.getV x).toNat) % 65536 ∧ t.pc = s.pc + 2 ∧ SameMemory s t ∧
    t = { s with index := t.index, pc := t.pc }

/-- `Cxkk`: a random byte, any value at all, masked by kk; the next draw is another one (R165, R166). The byte
is a free value, and the counter that picks it is the model's own (log 7). -/
def Obligations.RandomByteMasked : Prop :=
  ∀ (x : Reg) (kk : Byte) (s : State), ∃ t, exec (.rnd x kk) s = .next t ∧
    t.getV x = Config.randomByte s.draws &&& kk ∧ (kk = 0 → t.getV x = 0) ∧ t.draws = s.draws + 1 ∧
    SameVExcept (· = x) s t ∧ t.pc = s.pc + 2 ∧ SameMemory s t ∧ t = { s with v := t.v, pc := t.pc, draws := t.draws }

/-! ### Skips and control transfer -/

/-- `3xkk`, `4xkk`, `5xy0`, `9xy0`: PC + 4 when the condition holds, PC + 2 otherwise, and nothing else
(R180, R181, R182, R183, R184). -/
def Obligations.RegisterSkips : Prop :=
  ∀ (x y : Reg) (kk : Byte) (s : State),
    exec (.seImm x kk) s = .next { s with pc := s.pc + if s.getV x = kk then 4 else 2 } ∧
    exec (.sneImm x kk) s = .next { s with pc := s.pc + if s.getV x ≠ kk then 4 else 2 } ∧
    exec (.seReg x y) s = .next { s with pc := s.pc + if s.getV x = s.getV y then 4 else 2 } ∧
    exec (.sneReg x y) s = .next { s with pc := s.pc + if s.getV x ≠ s.getV y then 4 else 2 }

/-- `Ex9E` and `ExA1` test the key numbered by the low 4 bits of Vx, and write nothing but PC (R180, R185, R186, R187). -/
def Obligations.KeySkips : Prop :=
  ∀ (x k : Reg) (s : State), k.val = (s.getV x).toNat % 16 →
    exec (.skp x) s = .next { s with pc := s.pc + if s.keyPressed k = true then 4 else 2 } ∧
    exec (.sknp x) s = .next { s with pc := s.pc + if s.keyPressed k = false then 4 else 2 }

/-- `1nnn` and `Bnnn`: PC is nnn, or nnn plus V0 without wrap, and nothing else changes (R201, R202). -/
def Obligations.Jumps : Prop :=
  ∀ (nnn : BitVec 12) (s : State),
    (∃ t, exec (.jp nnn) s = .next t ∧ t.pc.toNat = nnn.toNat ∧ t = { s with pc := t.pc }) ∧
    (∃ t, exec (.jpV0 nnn) s = .next t ∧ t.pc.toNat = nnn.toNat + (s.getV 0).toNat ∧ t = { s with pc := t.pc })

/-- `2nnn` with a free entry pushes PC + 2 and jumps; with none it is fatal (R203, R262). -/
def Obligations.Call : Prop :=
  ∀ (nnn : BitVec 12) (s : State),
    (s.sp.val < 16 → ∃ t, exec (.call nnn) s = .next t ∧ t.pc.toNat = nnn.toNat ∧ t.sp.val = s.sp.val + 1 ∧
      (∀ j : Fin 16, t.stack[j.val] = if j.val = s.sp.val then s.pc + 2 else s.stack[j.val]) ∧ SameMemory s t ∧
      t = { s with stack := t.stack, sp := t.sp, pc := t.pc }) ∧
    (s.sp.val = 16 → exec (.call nnn) s = .next (s.fatalled .stackOverflow))

/-- `00EE` with an entry in use pops the top one, which keeps its value; with none it is fatal (R204, R263). -/
def Obligations.Return : Prop :=
  ∀ s : State,
    (∀ j : Fin 16, s.sp.val = j.val + 1 → ∃ t, exec .ret s = .next t ∧ t.pc = s.stack[j.val] ∧ t.sp.val = j.val ∧
      SameMemory s t ∧ t = { s with sp := t.sp, pc := t.pc }) ∧
    (s.sp.val = 0 → exec .ret s = .next (s.fatalled .stackUnderflow))

/-- A return right after a call continues after the call, with the stack pointer, the registers and memory as they were
(R203, R204). -/
def Obligations.ReturnContinuesAfterTheCall : Prop :=
  ∀ (nnn : BitVec 12) (s : State), s.sp.val < 16 → ∃ t u, exec (.call nnn) s = .next t ∧ exec .ret t = .next u ∧
    u.pc = s.pc + 2 ∧ u = { s with stack := u.stack, pc := u.pc } ∧
    ∀ j : Fin 16, j.val < s.sp.val → u.stack[j.val] = s.stack[j.val]

/-! ### Display -/

/-- `draw` inverts exactly the pixels on the screen under a set sprite bit, and collides exactly when one of them was set: rows
and columns beyond the edges are clipped (R221, R222, R223). -/
def Obligations.DrawXorsThePixelsOfTheSprite : Prop :=
  ∀ (d : Display) (x0 y0 : Nat) (rows : List Byte), x0 < 64 → y0 < 32 →
    (∀ r b, r < rows.length → b < 8 → x0 + b < 64 → y0 + r < 32 →
      (d.draw x0 y0 rows).1.pixel (x0 + b) (y0 + r) =
        (d.pixel (x0 + b) (y0 + r) ^^ (rows.getD r 0).getLsbD (7 - b))) ∧
    (∀ x y, ¬(x0 ≤ x ∧ x < x0 + 8 ∧ y0 ≤ y ∧ y < y0 + rows.length) →
      (d.draw x0 y0 rows).1.pixel x y = d.pixel x y) ∧
    ((d.draw x0 y0 rows).2 = true ↔
      ∃ x y, x < 64 ∧ y < 32 ∧ d.pixel x y = true ∧ (d.draw x0 y0 rows).1.pixel x y = false)

/-- `00E0`: every pixel 0, the dirty bit set and reported, nothing else but PC (R220, R224, R226). -/
def Obligations.ClearDisplay : Prop :=
  ∀ s : State, ∃ t, exec .cls s = .next t ∧ (∀ x y, t.disp.pixel x y = false) ∧ t.displayDirty = true ∧
    t.results = s.results ++ [.displayDirty] ∧ t.pc = s.pc + 2 ∧ SameMemory s t ∧
    t = { s with disp := t.disp, displayDirty := t.displayDirty, results := t.results, pc := t.pc }

/-- `Dxyn` in bounds: the n bytes at I, placed at (Vx mod 64, Vy mod 32) read before VF is written, are XORed onto the buffer;
VF is 1 when a set pixel was cleared and 0 otherwise; the dirty bit is set and reported (R222, R223, R225, R226). -/
def Obligations.DrawSprite : Prop :=
  ∀ (x y : Reg) (n : Nat) (s : State), n = 0 ∨ s.index.toNat + n ≤ 0x1000 →
    ∃ t, exec (.drw x y n) s = .next t ∧
      (∀ px py, px < 64 → py < 32 → t.disp.pixel px py = (s.disp.pixel px py ^^
        spriteBit ((s.getV x).toNat % 64) ((s.getV y).toNat % 32)
          ((List.range n).map fun r => s.readByte (s.index.toNat + r)) px py)) ∧
      (t.getV regF = 1 ∨ t.getV regF = 0) ∧
      (t.getV regF = 1 ↔ ∃ px py, px < 64 ∧ py < 32 ∧ s.disp.pixel px py = true ∧ t.disp.pixel px py = false) ∧
      SameVExcept (· = regF) s t ∧ t.displayDirty = true ∧ t.results = s.results ++ [.displayDirty] ∧
      t.pc = s.pc + 2 ∧ SameMemory s t ∧
      t = { s with v := t.v, disp := t.disp, displayDirty := t.displayDirty, results := t.results, pc := t.pc }

/-- Drawing the same sprite twice at the same place restores the buffer (R225). -/
def Obligations.DrawingTwiceRestoresTheBuffer : Prop :=
  ∀ (x y : Reg) (n : Nat) (s : State), x ≠ regF → y ≠ regF → (n = 0 ∨ s.index.toNat + n ≤ 0x1000) →
    ∃ t u, exec (.drw x y n) s = .next t ∧ exec (.drw x y n) t = .next u ∧ u.disp = s.disp

/-! ### Timers and key wait -/

/-- `Fx07` reads DT into Vx and `Fx15` sets DT from Vx; nothing else but PC changes (R240, R241). -/
def Obligations.DelayTimerAccess : Prop :=
  ∀ (x : Reg) (s : State),
    (∃ t, exec (.ldVxDt x) s = .next t ∧ t.getV x = s.dt ∧ SameVExcept (· = x) s t ∧ t.pc = s.pc + 2 ∧
      SameMemory s t ∧ t = { s with v := t.v, pc := t.pc }) ∧
    (∃ t, exec (.ldDtVx x) s = .next t ∧ t.dt = s.getV x ∧ t.pc = s.pc + 2 ∧ SameMemory s t ∧
      t = { s with dt := t.dt, pc := t.pc })

/-- `Fx18` sets ST from Vx and runs SoundCheck: the latch says whether ST > 0, and the tone's state is reported exactly when the
latch changed (R242, R243). -/
def Obligations.SoundTimerSet : Prop :=
  ∀ (x : Reg) (s : State), ∃ t, exec (.ldStVx x) s = .next t ∧ t.st = s.getV x ∧
    (t.soundOn = true ↔ 0 < (s.getV x).toNat) ∧
    t.results = s.results ++ (if t.soundOn = s.soundOn then [] else [.soundStateChanged t.soundOn]) ∧
    t.pc = s.pc + 2 ∧ SameMemory s t ∧
    t = { s with st := t.st, soundOn := t.soundOn, results := t.results, pc := t.pc }

/-- `Fx0A` sets the key-wait latch, advances PC and leaves Vx for the key (R244). -/
def Obligations.KeyWaitBegins : Prop :=
  ∀ (x : Reg) (s : State), ∃ t, exec (.ldVxK x) s = .next t ∧ t.waitActive = true ∧ t.waitReg = x ∧
    t.results = s.results ++ [.enteredKeyWait x] ∧ t.pc = s.pc + 2 ∧ (∀ r, t.getV r = s.getV r) ∧ SameMemory s t ∧
    t = { s with waitActive := t.waitActive, waitReg := t.waitReg, results := t.results, pc := t.pc }

/-! ### What every instruction keeps -/

/-- A step result that is fatal changed nothing else: registers, I, PC, stack, memory, display, timers, keys and latches are as
before (R260, R267). -/
def Obligations.FatalInstructionsChangeNothing : Prop :=
  ∀ (i : Instr) (s t : State) (r : HaltReason), s.fatal = none → exec i s = .next t → t.fatal = some r →
    t = s.fatalled r

/-- An instruction that is no jump, call, return or skip advances PC by exactly 2, unless it is fatal, and then PC stays (R37). -/
def Obligations.OtherInstructionsAdvancePcByTwo : Prop :=
  ∀ (i : Instr) (s t : State), setsPc i = false → s.fatal = none → exec i s = .next t →
    (t.fatal = none ∧ t.pc = s.pc + 2) ∨ (t.fatal ≠ none ∧ t.pc = s.pc)

/-- The general registers each instruction may write, and no others: the list of R32, with VF as the flag. -/
def Obligations.RegistersAreWrittenOnlyAsListed : Prop :=
  ∀ (i : Instr) (s t : State), exec i s = .next t → SameVExcept (writesV i) s t

/-- Only `Fx33` and `Fx55` write memory, and only the bytes from I that they store (R81, R137). -/
def Obligations.MemoryIsWrittenOnlyByStores : Prop :=
  ∀ (i : Instr) (s t : State), exec i s = .next t → SameMemoryOutside s.index.toNat (storedBytes i) s t

/-- I is written only by `Annn`, `Fx1E` and `Fx29`; the stack only by `2nnn`; the display and its dirty bit only by `00E0` and
`Dxyn`; DT only by `Fx15`, ST and the sound latch only by `Fx18`; the key-wait latch only by `Fx0A`; the keys, the serializer and
the host's channels by no instruction (R35, R40, R42, R43, R45, R46, R47, R48, R53). -/
def Obligations.OtherStateIsWrittenOnlyAsListed : Prop :=
  ∀ (i : Instr) (s t : State), exec i s = .next t →
    ((∀ nnn, i ≠ .ldI nnn) → (∀ x, i ≠ .addI x) → (∀ x, i ≠ .ldF x) → t.index = s.index) ∧
    ((∀ nnn, i ≠ .call nnn) → t.stack = s.stack) ∧
    ((∀ nnn, i ≠ .call nnn) → i ≠ .ret → t.sp = s.sp) ∧
    (i ≠ .cls → (∀ x y n, i ≠ .drw x y n) → t.disp = s.disp ∧ t.displayDirty = s.displayDirty) ∧
    ((∀ x, i ≠ .ldDtVx x) → t.dt = s.dt) ∧
    ((∀ x, i ≠ .ldStVx x) → t.st = s.st ∧ t.soundOn = s.soundOn) ∧
    ((∀ x, i ≠ .ldVxK x) → t.waitActive = s.waitActive ∧ t.waitReg = s.waitReg) ∧
    t.keys = s.keys ∧ t.sched = s.sched ∧ t.haltReason = s.haltReason ∧ t.tickRate = s.tickRate ∧
    t.accCpu = s.accCpu ∧ t.accTimer = s.accTimer ∧ t.inq = s.inq ∧ t.outbound = s.outbound ∧
    t.diagnostics = s.diagnostics ∧ t.loadReply = s.loadReply ∧ t.elapsed = s.elapsed ∧ t.host = s.host

/-- No instruction reads the inbound queue, the tick rate, the accumulators, the channels to the host or what the host will do:
changing them changes nothing in what an instruction does (R50, R52, R53). -/
def Obligations.InstructionsDoNotReadTheSerializer : Prop :=
  ∀ (i : Instr) (s t : State) (rate : Nat) (a b e : Rat) (q : List InEvent) (o : List OutEvent) (d : List Diagnostic)
    (h : List HostInput), exec i s = .next t →
    exec i { s with tickRate := rate, accCpu := a, accTimer := b, elapsed := e, inq := q, outbound := o, diagnostics := d,
                    host := h } =
      .next { t with tickRate := rate, accCpu := a, accTimer := b, elapsed := e, inq := q, outbound := o, diagnostics := d,
                     host := h }

/-- A sound event is produced exactly when the latch flips, by an instruction and by the timer phase alike, and says the latch's
new value (R44, R243, R282). -/
def Obligations.SoundEventsFollowTheLatch : Prop :=
  (∀ (i : Instr) (s t : State), exec i s = .next t →
    soundsOf t.results = soundsOf s.results ++ if t.soundOn = s.soundOn then [] else [t.soundOn]) ∧
  (∀ s : State,
    soundsOf s.timerPhase.results =
      soundsOf s.results ++ if s.timerPhase.soundOn = s.soundOn then [] else [s.timerPhase.soundOn])

/-! ### Input controller -/

/-- `key_down` and `key_up` of a key in 0..15 set and clear its state; of any other key they are discarded; while a key-wait is
active `key_down` also writes the key number to V[wait_reg] and ends the wait, and `key_up` never does (R275, R276). -/
def Obligations.KeyEvents : Prop :=
  ∀ (s : State) (k : Int),
    (∀ r : Reg, k = r.val → s.waitActive = false → s.applyEvent (.keyDown k) = { s with keys := s.keys.set r.val true }) ∧
    (∀ r : Reg, k = r.val → s.waitActive = true →
      (s.applyEvent (.keyDown k)).getV s.waitReg = BitVec.ofNat 8 r.val ∧
      SameVExcept (· = s.waitReg) s (s.applyEvent (.keyDown k)) ∧
      s.applyEvent (.keyDown k) =
        { s with keys := s.keys.set r.val true, v := (s.applyEvent (.keyDown k)).v, waitActive := false }) ∧
    (∀ r : Reg, k = r.val → s.applyEvent (.keyUp k) = { s with keys := s.keys.set r.val false }) ∧
    (k < 0 ∨ 15 < k → s.applyEvent (.keyDown k) = s ∧ s.applyEvent (.keyUp k) = s)

/-- `set_speed` clamps to [100, 3000] and changes the tick rate only (R294, R302). -/
def Obligations.SpeedIsClamped : Prop :=
  ∀ (s : State) (r : Int),
    s.applyEvent (.setSpeed r) = { s with tickRate := (s.applyEvent (.setSpeed r)).tickRate } ∧
    ((s.applyEvent (.setSpeed r)).tickRate : Int) = min (max r 100) 3000

/-! ### The tick -/

/-- A tick begins by applying the queued events in the order they were queued, and then sets the budget of CPU steps from the
accumulator, the tick rate after those events and the cap; what is offered while the tick runs waits for the next one. Between
ticks an event offered is queued behind the others (R290, R291, R292, R300). That wall time is an input, and that with no input of
the host the block waits, is the model's choice (logs 8 and 9). -/
def Obligations.TickStartsWithEventsAndBudget : Prop :=
  ∀ s : State, s.tornDown = false → s.sched = .running → s.phase = .boundary →
    (∀ (u : State) (time : Rat) (during : List InEvent) (rest : List HostInput), s.host = .elapse time during :: rest →
      u = s.inq.foldl State.applyEvent { s with inq := [], host := rest } →
      ∃ n a, step s =
          .next { u with accCpu := a, inq := during, elapsed := time, results := [], fatal := none, phase := .cpu n } ∧
        u.inq = [] ∧ n ≤ maxStepsPerTick ∧
        (u.waitActive = true → n = 0 ∧ a = 0) ∧
        (u.waitActive = false → ((u.accCpu + time) * u.tickRate).floor ≤ maxStepsPerTick →
          n = ((u.accCpu + time) * u.tickRate).floor.toNat ∧ a = u.accCpu + time - n / u.tickRate) ∧
        (u.waitActive = false → maxStepsPerTick < ((u.accCpu + time) * u.tickRate).floor →
          n = maxStepsPerTick ∧ a = 0)) ∧
    (∀ e rest, s.host = .offer e :: rest → step s = .next { s with host := rest, inq := s.inq ++ [e] }) ∧
    (s.host = [] → step s = .next s)

/-- Step (c) takes the decrements of this tick, each timer floored at 0, then SoundCheck; it does not depend on a key-wait
(R280, R281, R282, R284). -/
def Obligations.TimerPhase : Prop :=
  ∀ s : State, s.tornDown = false → s.sched = .running → s.phase = .timers → 0 ≤ s.accTimer + s.elapsed →
    ∃ (k : Nat) (t : State), step s = .next t ∧ (k : Int) = ((s.accTimer + s.elapsed) * 60).floor ∧
      t.accTimer = s.accTimer + s.elapsed - k / 60 ∧ t.dt.toNat = s.dt.toNat - k ∧ t.st.toNat = s.st.toNat - k ∧
      (t.soundOn = true ↔ 0 < t.st.toNat) ∧
      t.results = s.results ++ (if t.soundOn = s.soundOn then [] else [.soundStateChanged t.soundOn]) ∧
      t = { s with accTimer := t.accTimer, dt := t.dt, st := t.st, soundOn := t.soundOn, results := t.results,
                   phase := .frame }

/-- Ticks of any wall times make floor(60·T) decrements in all, T their sum (R281). -/
def Obligations.DecrementsFollowWallTime : Prop :=
  ∀ times : List Rat, (∀ t ∈ times, 0 ≤ t) → (totalDecrements 0 times : Int) = (times.sum * 60).floor

/-- In every window of exactly one second between two tick boundaries the timers take exactly 60 decrements, however the time is
cut into ticks (R283). -/
def Obligations.OneSecondTakesSixtyDecrements : Prop :=
  ∀ before window : List Rat, (∀ t ∈ before, 0 ≤ t) → (∀ t ∈ window, 0 ≤ t) → window.sum = 1 →
    totalDecrements 0 (before ++ window) = totalDecrements 0 before + 60

/-- Steps (d) and (e) of a tick: the frame if the buffer is dirty, which clears the bit, element 64·y + x of it the pixel in
column x and row y; then the tick's events in order; then, if the tick was fatal, `halted` once and `sched` Halted with the
reason; the tick is over (R227, R290, R295, R296, R304 to R308). R296 leaves the form of the hand-off open and R309 the host its
liberties in it: that it is a list, that the host takes its oldest event or drops a frame that a later one outdates, that it does
so between ticks, and that nothing else changes then, is the model's choice (logs 9 and 13). In that form no other event is lost or
duplicated and the latest frame stays, as R296 asks. That diagnostics are a list is the model's choice as well (log 14). -/
def Obligations.TickEndsWithFrameEventsAndHalt : Prop :=
  (∀ s : State, s.tornDown = false → s.sched = .running → s.phase = .frame →
    ∃ t u, step s = .next t ∧ step t = .next u ∧ u.phase = .boundary ∧ u.displayDirty = false ∧ u.results = [] ∧
      u.fatal = none ∧
      (∃ buffer : List Bool, buffer.length = 2048 ∧
        (∀ x y, x < 64 → y < 32 → buffer[64 * y + x]? = some (s.disp.pixel x y)) ∧
        u.outbound = s.outbound ++ (if s.displayDirty then [.frame buffer] else []) ++
          eventsOf s.results ++
          (s.fatal.map .halted).toList) ∧
      u.diagnostics = s.diagnostics ++ diagnosticsOf s.results ∧
      (∀ r, s.fatal = some r → u.sched = .halted ∧ u.haltReason = some r) ∧
      (s.fatal = none → u.sched = .running ∧ u.haltReason = s.haltReason) ∧
      u = { s with phase := u.phase, displayDirty := u.displayDirty, results := u.results, outbound := u.outbound,
                   diagnostics := u.diagnostics, fatal := u.fatal, sched := u.sched, haltReason := u.haltReason }) ∧
  (∀ (s : State) (rest : List HostInput), s.betweenTicks →
    (s.host = .accept :: rest → ∃ t, step s = .next t ∧ s.outbound = s.outbound.head?.toList ++ t.outbound ∧
      t = { s with host := rest, outbound := t.outbound }) ∧
    (∀ n, s.host = .dropFrame n :: rest → ∃ t, step s = .next t ∧
      notificationsOf t.outbound = notificationsOf s.outbound ∧ t.outbound.Sublist s.outbound ∧
      (framesOf t.outbound).getLast? = (framesOf s.outbound).getLast? ∧
      t = { s with host := rest, outbound := t.outbound }))

/-- Every tick ends: from any point of step (b) it takes at most four steps more than the CPU steps left in its budget to be
between two ticks again, in a live session unless the host has a teardown due in this tick (R290, R292, R299). The number of
steps a tick has and the form of such a teardown are the model's choice (logs 9 and 10). -/
def Obligations.EveryTickEnds : Prop :=
  ∀ (s : State) (n : Nat), s.tornDown = false → s.sched = .running → s.phase = .cpu n →
    ∃ k t, k ≤ n + 4 ∧ Sys2Proof.core.run k s = .next t ∧ t.phase = .boundary ∧
      (t.tornDown = true → ∃ m, m ≤ n ∧ s.host.head? = some (.teardownBetweenSteps m))

/-- While `sched` is Idle or Halted no tick runs: key events and wall time change nothing but what the host still has to do,
`set_speed` sets the clamped rate, alone or the last of those that come with the wall time (R297, R298, R302). That wall time is an
input with the events that come with it, and that with nothing from the host nothing changes, is the model's choice (logs 8 and 9). -/
def Obligations.IdleAndHaltedRunNoTick : Prop :=
  ∀ s : State, s.tornDown = false → s.sched ≠ .running →
    (s.host = [] → step s = .next s) ∧
    (∀ time during rest, s.host = .elapse time during :: rest →
      ∃ t, step s = .next t ∧ t = { s with host := rest, tickRate := t.tickRate } ∧
        ((∀ r, InEvent.setSpeed r ∉ during) → t.tickRate = s.tickRate) ∧
        (∀ pre r post, during = pre ++ .setSpeed r :: post → (∀ q, InEvent.setSpeed q ∉ post) →
          t.tickRate = (min (max r 100) 3000).toNat)) ∧
    (∀ k rest, s.host = .offer (.keyDown k) :: rest → step s = .next { s with host := rest }) ∧
    (∀ k rest, s.host = .offer (.keyUp k) :: rest → step s = .next { s with host := rest }) ∧
    (∀ r rest, s.host = .offer (.setSpeed r) :: rest →
      step s = .next { s with host := rest, tickRate := (min (max r 100) 3000).toNat })

/-- Halted is left by a load only: as long as the host neither loads nor tears down, any number of steps leaves everything but
the tick rate as it was, and no event is sent (R270, R295, R298). The host's inputs and what it takes from the channel are in the
form the model chose (logs 9 and 13). -/
def Obligations.HaltedIsTerminalUntilALoad : Prop :=
  ∀ (n : Nat) (s : State), s.tornDown = false → s.sched = .halted → (∀ bytes, HostInput.load bytes ∉ s.host) →
    HostInput.teardown ∉ s.host → (∀ k, HostInput.teardownBetweenSteps k ∉ s.host) →
    ∃ t, Sys2Proof.core.run n s = .next t ∧ t.outbound.Sublist s.outbound ∧
      t = { s with host := t.host, tickRate := t.tickRate, outbound := t.outbound }

/-! ### Load, session and teardown -/

/-- An accepted load, which the host may request whenever no tick is in progress, resets the whole block in every serializer
state: memory is the font table at FONT_BASE (whatever table, its rows in bits 7:4), the ROM at 0x200 and 0 elsewhere; every
register, timer, pixel, key, latch and accumulator has its reset value; the inbound queue is empty; the tick rate is kept; nothing
is sent (R82, R330). That the request is an input of the host, taken between ticks, that its answer is a field, and that the channel
keeps what it carries is the model's choice (logs 9, 13 and 15). -/
def Obligations.LoadResetsTheWholeBlock : Prop :=
  (∀ (s : State) (bytes : List Byte) (rest : List HostInput), s.betweenTicks → s.host = .load bytes :: rest →
    step s = .next ({ s with host := rest }.loadRom bytes)) ∧
  ∀ (bytes : List Byte) (s t : State), bytes.length ≤ 3584 → t = s.loadRom bytes →
    (∀ j (h : j < bytes.length), t.readByte (0x200 + j) = bytes[j]) ∧
    (∀ j, j < 80 → t.readByte (fontBase + j) = fontTable.getD j 0 ∧ t.readByte (fontBase + j) &&& 0x0F#8 = 0) ∧
    (∀ a, (a < 0x200 ∨ 0x200 + bytes.length ≤ a) → (a < fontBase ∨ fontBase + 80 ≤ a) → t.readByte a = 0) ∧
    (∀ r, t.getV r = 0) ∧ t.index = 0 ∧ t.pc = 0x200 ∧ t.sp = 0 ∧ (∀ j : Fin 16, t.stack[j.val] = 0) ∧
    t.dt = 0 ∧ t.st = 0 ∧ t.soundOn = false ∧ (∀ x y, t.disp.pixel x y = false) ∧ t.displayDirty = true ∧
    (∀ k, t.keyPressed k = false) ∧ t.waitActive = false ∧ t.waitReg = 0 ∧ t.accCpu = 0 ∧ t.accTimer = 0 ∧
    t.inq = [] ∧ t.sched = .running ∧ t.haltReason = none ∧ t.tickRate = s.tickRate ∧ t.outbound = s.outbound ∧
    t.loadReply = some .ok

/-- A payload over 3584 bytes is rejected, and the step that takes the request changes nothing but the answer to
the host; one of exactly 3584 bytes is accepted and fills memory from 0x200 to 0xFFF (R303, R331). That the request
is an input of the host, taken between ticks, and its answer a field is the model's choice (logs 9 and 15). -/
def Obligations.OversizedRomIsRejected : Prop :=
  ∀ (bytes : List Byte) (s : State),
    (3584 < bytes.length → s.loadRom bytes = { s with loadReply := some .invalidROM } ∧
      ∀ rest, s.betweenTicks → s.host = .load bytes :: rest →
        step s = .next { s with host := rest, loadReply := some .invalidROM }) ∧
    (bytes.length = 3584 → (s.loadRom bytes).loadReply = some .ok ∧
      ∀ a, 0x200 ≤ a → a ≤ 0xFFF → (s.loadRom bytes).readByte a = bytes.getD (a - 0x200) 0)

/-- A new session is Idle with every register, stack entry, timer, latch, pixel and byte 0 and the initial tick rate, which lies
in [100, 3000] (R333, R10). -/
def Obligations.SessionIsCreatedIdle : Prop :=
  State.created.sched = .idle ∧ (∀ r, State.created.getV r = 0) ∧ State.created.index = 0 ∧ State.created.pc = 0 ∧
  State.created.sp = 0 ∧ (∀ j : Fin 16, State.created.stack[j.val] = 0) ∧ State.created.dt = 0 ∧ State.created.st = 0 ∧
  State.created.soundOn = false ∧ State.created.waitActive = false ∧ State.created.waitReg = 0 ∧
  State.created.displayDirty = false ∧ (∀ x y, State.created.disp.pixel x y = false) ∧
  (∀ k, State.created.keyPressed k = false) ∧ State.created.inq = [] ∧ (∀ a, a ≤ 0xFFF → State.created.readByte a = 0) ∧
  State.created.tickRate = initialTickRate ∧ 100 ≤ initialTickRate ∧ initialTickRate ≤ 3000

/-! ### Invariants -/

/-- The invariant holds right after reset, which is the model's choice of a first load (log 1), and in a new session. -/
def Obligations.InvariantHoldsAtReset : Prop := State.reset.Inv ∧ State.created.Inv

/-- Every step keeps the invariant: memory stays canonical, the tick rate in its range, the accumulators non-negative, the timer
accumulator below one decrement, the sound latch equal to ST > 0, PC at most 0x10FE, return addresses at most 0x1000, the tick's
fields consistent with `sched`. -/
def Obligations.EveryStepKeepsTheInvariant : Prop := ∀ s t : State, s.Inv → step s = .next t → t.Inv
end

