-- ==== Sys2Proof/Laws/Decode.lean ====
section
/-! SUPPORT. The fields of an encoded word are the operands it was made of, and a word is its fields. -/

namespace Sys2Proof

theorem toNat_opOf (w : Word) : (opOf w).toNat = w.toNat / 4096 := by
  simp [opOf, BitVec.extractLsb'_toNat, Nat.shiftRight_eq_div_pow]; omega

theorem val_xOf (w : Word) : (xOf w).val = w.toNat / 256 % 16 := by
  simp [xOf, Nat.shiftRight_eq_div_pow]

theorem val_yOf (w : Word) : (yOf w).val = w.toNat / 16 % 16 := by
  simp [yOf, Nat.shiftRight_eq_div_pow]

theorem toNat_nOf (w : Word) : (nOf w).toNat = w.toNat % 16 := by
  simp [nOf, BitVec.extractLsb'_toNat]

theorem toNat_kkOf (w : Word) : (kkOf w).toNat = w.toNat % 256 := by
  simp [kkOf, BitVec.extractLsb'_toNat]

theorem toNat_nnnOf (w : Word) : (nnnOf w).toNat = w.toNat % 4096 := by
  simp [nnnOf, BitVec.extractLsb'_toNat]

theorem toNat_encNnn {op : Nat} (h : op < 16) (nnn : BitVec 12) : (encNnn op nnn).toNat = op * 4096 + nnn.toNat := by
  have := nnn.isLt
  simp [encNnn]; omega

theorem toNat_encXkk {op : Nat} (h : op < 16) (x : Reg) (kk : Byte) :
    (encXkk op x kk).toNat = op * 4096 + x.val * 256 + kk.toNat := by
  have := x.isLt; have := kk.isLt
  simp [encXkk]; omega

theorem toNat_encXyn {op n : Nat} (h : op < 16) (hn : n < 16) (x y : Reg) :
    (encXyn op x y n).toNat = op * 4096 + x.val * 256 + y.val * 16 + n := by
  have := x.isLt; have := y.isLt
  simp [encXyn]; omega

/-- The fields of a word `op nnn`. -/
theorem fields_encNnn {op : Nat} (h : op < 16) (nnn : BitVec 12) :
    (opOf (encNnn op nnn)).toNat = op ∧ nnnOf (encNnn op nnn) = nnn := by
  have := nnn.isLt
  refine ⟨by rw [toNat_opOf, toNat_encNnn h]; omega, BitVec.eq_of_toNat_eq ?_⟩
  rw [toNat_nnnOf, toNat_encNnn h]; omega

/-- The fields of a word `op x kk`. -/
theorem fields_encXkk {op : Nat} (h : op < 16) (x : Reg) (kk : Byte) :
    (opOf (encXkk op x kk)).toNat = op ∧ xOf (encXkk op x kk) = x ∧ kkOf (encXkk op x kk) = kk := by
  have := x.isLt; have := kk.isLt
  refine ⟨by rw [toNat_opOf, toNat_encXkk h]; omega, Fin.ext ?_, BitVec.eq_of_toNat_eq ?_⟩
  · rw [val_xOf, toNat_encXkk h]; omega
  · rw [toNat_kkOf, toNat_encXkk h]; omega

/-- The fields of a word `op x y n`. -/
theorem fields_encXyn {op n : Nat} (h : op < 16) (hn : n < 16) (x y : Reg) :
    (opOf (encXyn op x y n)).toNat = op ∧ xOf (encXyn op x y n) = x ∧ yOf (encXyn op x y n) = y ∧
      (nOf (encXyn op x y n)).toNat = n := by
  have := x.isLt; have := y.isLt
  refine ⟨by rw [toNat_opOf, toNat_encXyn h hn]; omega, Fin.ext ?_, Fin.ext ?_, ?_⟩
  · rw [val_xOf, toNat_encXyn h hn]; omega
  · rw [val_yOf, toNat_encXyn h hn]; omega
  · rw [toNat_nOf, toNat_encXyn h hn]; omega

/-- A word is its opcode and nnn. -/
theorem encNnn_fields (w : Word) : encNnn (opOf w).toNat (nnnOf w) = w := by
  apply BitVec.eq_of_toNat_eq
  rw [toNat_encNnn (opOf w).isLt, toNat_opOf, toNat_nnnOf]; omega

/-- A word is its opcode, x and kk. -/
theorem encXkk_fields (w : Word) : encXkk (opOf w).toNat (xOf w) (kkOf w) = w := by
  apply BitVec.eq_of_toNat_eq
  rw [toNat_encXkk (opOf w).isLt, toNat_opOf, val_xOf, toNat_kkOf]; omega

/-- A word is its opcode, x, y and n. -/
theorem encXyn_fields (w : Word) : encXyn (opOf w).toNat (xOf w) (yOf w) (nOf w).toNat = w := by
  apply BitVec.eq_of_toNat_eq
  rw [toNat_encXyn (opOf w).isLt (nOf w).isLt, toNat_opOf, val_xOf, val_yOf, toNat_nOf]; omega

/-- A word is its high byte times 256 plus its low byte (R86). -/
theorem toNat_wordOfBytes (hi lo : Byte) : (wordOfBytes hi lo).toNat = hi.toNat * 256 + lo.toNat := by
  have := hi.isLt; have := lo.isLt
  simp only [wordOfBytes, BitVec.toNat_append]
  rw [← Nat.shiftLeft_add_eq_or_of_lt (by omega), Nat.shiftLeft_eq]

/-- The two bytes of a word in memory order make the word again (R87). -/
@[simp] theorem wordOfBytes_bytes (w : Word) : wordOfBytes (hiByte w) (loByte w) = w := by
  apply BitVec.eq_of_toNat_eq
  rw [toNat_wordOfBytes]
  simp [hiByte, loByte, BitVec.extractLsb'_toNat, Nat.shiftRight_eq_div_pow]; omega

end Sys2Proof
end

