-- ==== Sys2Proof/Laws/Display.lean ====
section
/-! SUPPORT. What drawing does to every pixel, and when it reports a collision: one lemma per operation of the buffer. -/

namespace Sys2Proof.Machine

@[simp] theorem Display.pixel_cleared (x y : Nat) : Display.cleared.pixel x y = false := by
  simp [Display.pixel, Display.cleared]

/-- There is no pixel off the grid. -/
theorem Display.pixel_off (d : Display) {x y : Nat} (h : ¬(x < 64 ∧ y < 32)) : d.pixel x y = false := by
  simp only [Display.pixel, h, dite_false]

/-- A toggle inverts its pixel, if it is on the grid, and no other. -/
theorem Display.pixel_toggle (d : Display) (px py x y : Nat) :
    (d.toggle px py).pixel x y = (d.pixel x y ^^ decide (x = px ∧ y = py ∧ px < 64 ∧ py < 32)) := by
  by_cases hp : px < 64 ∧ py < 32
  · by_cases h : x < 64 ∧ y < 32
    · simp only [Display.toggle, Display.pixel, hp, h, dite_true, and_self, and_true]
      by_cases hy : y = py
      · subst hy
        by_cases hx : x = px
        · subst hx; simp
        · simp [hx, Vector.getElem_set_ne, Ne.symm hx]
      · simp [hy, Vector.getElem_set_ne, Ne.symm hy]
    · have : ¬(x = px ∧ y = py ∧ px < 64 ∧ py < 32) := by rintro ⟨rfl, rfl, h'⟩; exact h h'
      rw [Display.pixel_off _ h, Display.pixel_off _ h, decide_eq_false this]; rfl
  · simp [Display.toggle, hp]

/-- The pixels after one set sprite bit. -/
theorem Display.pixel_drawPixel (px py : Nat) (acc : Display × Bool) (x y : Nat) :
    (Display.drawPixel px py acc).1.pixel x y =
      (acc.1.pixel x y ^^ decide (x = px ∧ y = py ∧ px < 64 ∧ py < 32)) := by
  unfold Display.drawPixel
  split
  · rw [decide_eq_false (by omega), Bool.xor_false]
  · exact Display.pixel_toggle _ _ _ _ _

/-- The collision after one set sprite bit. -/
theorem Display.collision_drawPixel (px py : Nat) (acc : Display × Bool) :
    (Display.drawPixel px py acc).2 = (acc.2 || acc.1.pixel px py) := by
  unfold Display.drawPixel
  split
  · rw [Display.pixel_off _ (by omega)]; simp
  · rfl

/-- Whether the bit of a row for column `x` is among its first `k` bits and set. -/
def rowBit (x0 k : Nat) (row : Byte) (x : Nat) : Bool := decide (x0 ≤ x ∧ x < x0 + k) && row.getLsbD (7 - (x - x0))

theorem rowBit_succ (x0 k : Nat) (row : Byte) (x : Nat) :
    rowBit x0 (k + 1) row x = (rowBit x0 k row x || (decide (x = x0 + k) && row.getLsbD (7 - k))) := by
  unfold rowBit
  by_cases h : x = x0 + k
  · subst h; simp
  · have : (x0 ≤ x ∧ x < x0 + (k + 1)) ↔ (x0 ≤ x ∧ x < x0 + k) := by omega
    simp [this, h]

/-- The pixels and the collision after the first `k` bits of a row. -/
theorem Display.drawRow_prefix (x0 py : Nat) (row : Byte) (acc : Display × Bool) (k : Nat) :
    (∀ x y, (((List.range k).foldl (fun a b => if row.getLsbD (7 - b) then Display.drawPixel (x0 + b) py a else a) acc).1.pixel x y =
      (acc.1.pixel x y ^^ (rowBit x0 k row x && decide (y = py ∧ x < 64 ∧ y < 32))))) ∧
    (((List.range k).foldl (fun a b => if row.getLsbD (7 - b) then Display.drawPixel (x0 + b) py a else a) acc).2 = true ↔
      acc.2 = true ∨ ∃ x, rowBit x0 k row x = true ∧ acc.1.pixel x py = true) := by
  induction k with
  | zero =>
    have h : ∀ x, rowBit x0 0 row x = false := fun x => by rw [rowBit, decide_eq_false (by omega)]; rfl
    simp [h]
  | succ k ih =>
    obtain ⟨ih1, ih2⟩ := ih
    rw [List.range_succ, List.foldl_append, List.foldl_cons, List.foldl_nil]
    have hk : rowBit x0 k row (x0 + k) = false := by simp [rowBit]
    by_cases hb : row.getLsbD (7 - k) = true
    · rw [if_pos hb]
      refine ⟨fun x y => ?_, ?_⟩
      · rw [Display.pixel_drawPixel, ih1, rowBit_succ]
        by_cases hx : x = x0 + k
        · subst hx
          by_cases hy : y = py
          · subst hy; simp [hk, hb, and_comm]
          · simp [hy]
        · simp [hx]
      · rw [Display.collision_drawPixel, Bool.or_eq_true, ih2, ih1, hk]
        simp only [Bool.false_and, Bool.xor_false]
        constructor
        · rintro ((h | ⟨x, h1, h2⟩) | h)
          · exact .inl h
          · exact .inr ⟨x, by rw [rowBit_succ, h1]; rfl, h2⟩
          · exact .inr ⟨x0 + k, by rw [rowBit_succ]; simp [hb], h⟩
        · rintro (h | ⟨x, h1, h2⟩)
          · exact .inl (.inl h)
          · rw [rowBit_succ, Bool.or_eq_true] at h1
            rcases h1 with h1 | h1
            · exact .inl (.inr ⟨x, h1, h2⟩)
            · simp only [Bool.and_eq_true, decide_eq_true_eq] at h1
              exact .inr (h1.1 ▸ h2)
    · rw [if_neg hb]
      have hs : ∀ x, rowBit x0 (k + 1) row x = rowBit x0 k row x := fun x => by simp [rowBit_succ, hb]
      simp only [hs]
      exact ⟨ih1, ih2⟩

/-- The pixels after one sprite row (R221). -/
theorem Display.pixel_drawRow (x0 py : Nat) (row : Byte) (acc : Display × Bool) (x y : Nat) :
    (Display.drawRow x0 py row acc).1.pixel x y =
      (acc.1.pixel x y ^^ (rowBit x0 8 row x && decide (y = py ∧ x < 64 ∧ y < 32))) :=
  (Display.drawRow_prefix x0 py row acc 8).1 x y

/-- The collision after one sprite row (R221). -/
theorem Display.collision_drawRow (x0 py : Nat) (row : Byte) (acc : Display × Bool) :
    (Display.drawRow x0 py row acc).2 = true ↔
      acc.2 = true ∨ ∃ x, rowBit x0 8 row x = true ∧ acc.1.pixel x py = true :=
  (Display.drawRow_prefix x0 py row acc 8).2

/-- A sprite's bits are those of its first row and those of the rows below it. -/
theorem spriteBit_cons (x0 y0 : Nat) (row : Byte) (rows : List Byte) (x y : Nat) :
    spriteBit x0 y0 (row :: rows) x y =
      ((rowBit x0 8 row x && decide (y = y0)) || spriteBit x0 (y0 + 1) rows x y) := by
  unfold spriteBit rowBit
  by_cases hy : y = y0
  · subst hy; simp
  · by_cases hlt : y < y0
    · have h1 : ¬(x0 ≤ x ∧ x < x0 + 8 ∧ y0 ≤ y ∧ y < y0 + (row :: rows).length) := by omega
      have h2 : ¬(x0 ≤ x ∧ x < x0 + 8 ∧ y0 + 1 ≤ y ∧ y < y0 + 1 + rows.length) := by omega
      rw [decide_eq_false h1, decide_eq_false h2, decide_eq_false hy]; simp
    · obtain ⟨j, rfl⟩ : ∃ j, y = y0 + 1 + j := ⟨y - (y0 + 1), by omega⟩
      rw [show y0 + 1 + j - y0 = j + 1 by omega, show y0 + 1 + j - (y0 + 1) = j by omega]
      have e : (x0 ≤ x ∧ x < x0 + 8 ∧ y0 ≤ y0 + 1 + j ∧ y0 + 1 + j < y0 + (row :: rows).length) ↔
          (x0 ≤ x ∧ x < x0 + 8 ∧ y0 + 1 ≤ y0 + 1 + j ∧ y0 + 1 + j < y0 + 1 + rows.length) := by
        simp only [List.length_cons]; omega
      simp only [hy, e, decide_false, Bool.and_false, Bool.false_or, List.getD_cons_succ]

theorem spriteBit_nil (x0 y0 x y : Nat) : spriteBit x0 y0 [] x y = false := by
  rw [spriteBit, List.length_nil, decide_eq_false (by omega)]; rfl

/-- A sprite has no bit above its first row. -/
theorem spriteBit_above (x0 y0 : Nat) (rows : List Byte) {x y : Nat} (h : y < y0) : spriteBit x0 y0 rows x y = false := by
  rw [spriteBit, decide_eq_false (by omega)]; rfl

/-- The pixels after the rows of a sprite (R221, R222). -/
theorem Display.pixel_drawRows (x0 y0 : Nat) (rows : List Byte) (acc : Display × Bool) (x y : Nat) :
    (Display.drawRows x0 y0 rows acc).1.pixel x y =
      (acc.1.pixel x y ^^ (spriteBit x0 y0 rows x y && decide (x < 64 ∧ y < 32))) := by
  induction rows generalizing y0 acc with
  | nil => simp [Display.drawRows, spriteBit_nil]
  | cons row rows ih =>
    rw [Display.drawRows, ih, Display.pixel_drawRow, spriteBit_cons]
    by_cases hy : y = y0
    · subst hy; simp [spriteBit_above x0 (y + 1) rows (Nat.lt_succ_self y)]
    · simp [hy]

/-- The collision after the rows of a sprite (R221, R223). -/
theorem Display.collision_drawRows (x0 y0 : Nat) (rows : List Byte) (acc : Display × Bool) :
    (Display.drawRows x0 y0 rows acc).2 = true ↔
      acc.2 = true ∨ ∃ x y, spriteBit x0 y0 rows x y = true ∧ acc.1.pixel x y = true := by
  induction rows generalizing y0 acc with
  | nil => simp [Display.drawRows, spriteBit_nil]
  | cons row rows ih =>
    rw [Display.drawRows, ih, Display.collision_drawRow]
    simp only [Display.pixel_drawRow, spriteBit_cons, Bool.or_eq_true, Bool.and_eq_true, decide_eq_true_eq]
    constructor
    · rintro ((h | ⟨x, h1, h2⟩) | ⟨x, y, h1, h2⟩)
      · exact .inl h
      · exact .inr ⟨x, y0, .inl ⟨h1, rfl⟩, h2⟩
      · have hy : y ≠ y0 := by
          rintro rfl
          rw [spriteBit_above _ _ _ (Nat.lt_succ_self y)] at h1
          exact Bool.false_ne_true h1
        exact .inr ⟨x, y, .inr h1, by simpa [hy] using h2⟩
    · rintro (h | ⟨x, y, ⟨h1, rfl⟩ | h1, h2⟩)
      · exact .inl (.inl h)
      · exact .inl (.inr ⟨x, h1, h2⟩)
      · have hy : y ≠ y0 := by
          rintro rfl
          rw [spriteBit_above _ _ _ (Nat.lt_succ_self y)] at h1
          exact Bool.false_ne_true h1
        exact .inr ⟨x, y, h1, by simpa [hy] using h2⟩

/-- Every pixel after a draw: inverted exactly where the sprite has a set bit on the grid (R221, R222). -/
theorem Display.pixel_draw (d : Display) (x0 y0 : Nat) (rows : List Byte) (x y : Nat) :
    (d.draw x0 y0 rows).1.pixel x y = (d.pixel x y ^^ (spriteBit x0 y0 rows x y && decide (x < 64 ∧ y < 32))) :=
  Display.pixel_drawRows x0 y0 rows (d, false) x y

/-- A draw collides exactly when a set pixel lies under a set bit (R223). -/
theorem Display.collision_draw (d : Display) (x0 y0 : Nat) (rows : List Byte) :
    (d.draw x0 y0 rows).2 = true ↔ ∃ x y, spriteBit x0 y0 rows x y = true ∧ d.pixel x y = true := by
  simpa [Display.draw] using Display.collision_drawRows x0 y0 rows (d, false)

/-- Two buffers with the same pixels are the same buffer. -/
theorem Display.ext_pixel {d e : Display} (h : ∀ x y, d.pixel x y = e.pixel x y) : d = e := by
  apply Vector.ext
  intro y hy
  apply Vector.ext
  intro x hx
  simpa [Display.pixel, hx, hy] using h x y

end Sys2Proof.Machine
end

