-- ==== Sys2Proof/Laws/Memory.lean ====
section
/-! SUPPORT. The laws of memory: a read after a write, and that every operation keeps the canonical form. -/

namespace Sys2Proof.Machine

theorem Memory.read_cons (c : Host.Cell) (m : Memory) (a : Nat) :
    Memory.read (c :: m) a = if c.1 = a then c.2 else Memory.read m a := rfl

theorem Memory.read_erase_same (m : Memory) (a : Nat) : (m.erase a).read a = Memory.unlisted a := by
  induction m with
  | nil => rfl
  | cons c m ih =>
    by_cases h : c.1 = a
    · simpa [Memory.erase, h] using ih
    · simpa [Memory.erase, h, Memory.read_cons] using ih

theorem Memory.read_erase_ne (m : Memory) {a a' : Nat} (h : a' ≠ a) : (m.erase a).read a' = m.read a' := by
  induction m with
  | nil => rfl
  | cons c m ih =>
    by_cases hc : c.1 = a
    · simpa [Memory.erase, hc, Memory.read_cons, Ne.symm h] using ih
    · by_cases hc' : c.1 = a' <;> simp_all [Memory.erase, Memory.read_cons]

theorem Memory.erase_no_key {m : Memory} {a : Nat} : ∀ c ∈ m.erase a, c.1 ≠ a := by
  intro c hc
  simpa using (List.mem_filter.mp hc).2

theorem Memory.read_insert_same (m : Memory) (a : Nat) (b : Byte) (h : ∀ c ∈ m, c.1 ≠ a) :
    (Memory.insert (a, b) m).read a = b := by
  induction m with
  | nil => simp [Memory.insert, Memory.read_cons]
  | cons c m ih =>
    have hc : c.1 ≠ a := h c (by simp)
    by_cases hl : c.1 < a
    · simpa [Memory.insert, hl, Memory.read_cons, hc] using ih fun d hd => h d (by simp [hd])
    · simp [Memory.insert, hl, Memory.read_cons]

theorem Memory.read_insert_ne (m : Memory) {a a' : Nat} (b : Byte) (h : a' ≠ a) :
    (Memory.insert (a, b) m).read a' = m.read a' := by
  induction m with
  | nil => simp [Memory.insert, Memory.read_cons, Ne.symm h]
  | cons c m ih =>
    by_cases hl : c.1 < a
    · simp [Memory.insert, hl, Memory.read_cons, ih]
    · simp [Memory.insert, hl, Memory.read_cons, Ne.symm h]

/-- A read after a write to the same address gives the byte written. -/
@[simp] theorem Memory.read_write_same (m : Memory) (a : Nat) (b : Byte) : (m.write a b).read a = b := by
  unfold Memory.write
  split
  · next h => rw [Memory.read_erase_same, h]
  · exact Memory.read_insert_same _ _ _ Memory.erase_no_key

/-- A write leaves every other address alone. -/
theorem Memory.read_write_ne (m : Memory) {a a' : Nat} (b : Byte) (h : a' ≠ a) : (m.write a b).read a' = m.read a' := by
  unfold Memory.write
  split
  · exact Memory.read_erase_ne m h
  · rw [Memory.read_insert_ne _ _ h, Memory.read_erase_ne m h]

/-- Stored bytes leave every address outside them alone. -/
theorem Memory.read_writeBytes_outside (m : Memory) (a : Nat) (bs : List Byte) {a' : Nat}
    (h : a' < a ∨ a + bs.length ≤ a') : (m.writeBytes a bs).read a' = m.read a' := by
  induction bs generalizing m a with
  | nil => rfl
  | cons b bs ih =>
    simp only [List.length_cons] at h
    rw [Memory.writeBytes, ih _ _ (by omega), Memory.read_write_ne _ _ (by omega)]

/-- Stored bytes are read back. -/
theorem Memory.read_writeBytes (m : Memory) (a : Nat) (bs : List Byte) (j : Nat) (h : j < bs.length) :
    (m.writeBytes a bs).read (a + j) = bs[j] := by
  induction bs generalizing m a j with
  | nil => simp at h
  | cons b bs ih =>
    rw [Memory.writeBytes]
    cases j with
    | zero => rw [Nat.add_zero, Memory.read_writeBytes_outside _ _ _ (by omega)]; simp
    | succ j =>
      have := ih (m.write a b) (a + 1) j (by simpa using h)
      rw [show a + (j + 1) = a + 1 + j by omega, this]; rfl

@[simp] theorem Memory.length_readBytes (m : Memory) (a n : Nat) : (m.readBytes a n).length = n := by
  induction n generalizing a with
  | zero => rfl
  | succ n ih => simp [Memory.readBytes, ih]

/-- Row j of a byte sequence in memory is the byte at its address. -/
theorem Memory.getD_readBytes (m : Memory) (a n j : Nat) (h : j < n) : (m.readBytes a n).getD j 0 = m.read (a + j) := by
  induction n generalizing a j with
  | zero => omega
  | succ n ih =>
    cases j with
    | zero => simp [Memory.readBytes]
    | succ j =>
      have := ih (a + 1) j (by omega)
      rw [show a + (j + 1) = a + 1 + j by omega, ← this]; simp [Memory.readBytes]

/-! ### The canonical form -/

/-- The canonical form as two facts: rising addresses, and every entry as `entryOk` says. -/
theorem Memory.wf_iff (m : Memory) :
    m.wf = true ↔ m.Pairwise (fun c d => c.1 < d.1) ∧ ∀ c ∈ m, Memory.entryOk c = true := by
  induction m with
  | nil => simp [Memory.wf]
  | cons c m ih =>
    cases m with
    | nil => simp [Memory.wf]
    | cons d m =>
      simp only [Memory.wf, Bool.and_eq_true, decide_eq_true_eq, ih, List.pairwise_cons, List.mem_cons, forall_eq_or_imp]
      constructor
      · rintro ⟨⟨h1, h2⟩, ⟨h3, h4⟩, h5, h6⟩
        exact ⟨⟨⟨h2, fun e he => h2.trans (h3 e he)⟩, h3, h4⟩, h1, h5, h6⟩
      · rintro ⟨⟨⟨h2, -⟩, h3, h4⟩, h1, h5, h6⟩
        exact ⟨⟨h1, h2⟩, ⟨h3, h4⟩, h5, h6⟩

theorem Memory.mem_insert (c : Host.Cell) (m : Memory) (e : Host.Cell) : e ∈ Memory.insert c m ↔ e = c ∨ e ∈ m := by
  induction m with
  | nil => simp [Memory.insert]
  | cons d m ih => by_cases h : d.1 < c.1 <;> simp [Memory.insert, h, ih, or_left_comm]

theorem Memory.pairwise_insert (c : Host.Cell) (m : Memory) (hm : m.Pairwise (fun c d => c.1 < d.1))
    (hc : ∀ d ∈ m, d.1 ≠ c.1) : (Memory.insert c m).Pairwise (fun c d => c.1 < d.1) := by
  induction m with
  | nil => simp [Memory.insert]
  | cons d m ih =>
    obtain ⟨hd, hm⟩ := List.pairwise_cons.mp hm
    by_cases h : d.1 < c.1
    · simp only [Memory.insert, h, if_true, List.pairwise_cons]
      refine ⟨fun e he => ?_, ih hm fun e he => hc e (by simp [he])⟩
      rcases (Memory.mem_insert c m e).mp he with rfl | he
      · exact h
      · exact hd e he
    · have hlt : c.1 < d.1 := by have := hc d (by simp); omega
      simp only [Memory.insert, h, if_false, List.pairwise_cons]
      exact ⟨fun e he => by rcases List.mem_cons.mp he with rfl | he; exacts [hlt, hlt.trans (hd e he)], hd, hm⟩

/-- A write inside the address space keeps the canonical form. -/
theorem Memory.wf_write {m : Memory} (a : Nat) (b : Byte) (hm : m.wf = true) (ha : a < Config.memSize) :
    (m.write a b).wf = true := by
  obtain ⟨hp, ho⟩ := (Memory.wf_iff m).mp hm
  have hpe : (m.erase a).Pairwise (fun c d => c.1 < d.1) := hp.filter _
  have hoe : ∀ c ∈ m.erase a, Memory.entryOk c = true := fun c hc => ho c (List.mem_of_mem_filter hc)
  rw [Memory.wf_iff]
  unfold Memory.write
  split
  · exact ⟨hpe, hoe⟩
  · next hb =>
    refine ⟨Memory.pairwise_insert _ _ hpe Memory.erase_no_key, fun c hc => ?_⟩
    rcases (Memory.mem_insert _ _ c).mp hc with rfl | hc
    · simp [Memory.entryOk, ha, hb]
    · exact hoe c hc

/-- Stores inside the address space keep the canonical form. -/
theorem Memory.wf_writeBytes {m : Memory} (a : Nat) (bs : List Byte) (hm : m.wf = true)
    (h : a + bs.length ≤ Config.memSize) : (m.writeBytes a bs).wf = true := by
  induction bs generalizing m a with
  | nil => exact hm
  | cons b bs ih =>
    simp only [List.length_cons] at h
    exact ih (a + 1) (Memory.wf_write a b hm (by omega)) (by omega)

theorem Memory.image_fst_ge (a : Nat) (bs : List Byte) : ∀ c ∈ Memory.image a bs, a ≤ c.1 := by
  induction bs generalizing a with
  | nil => simp [Memory.image]
  | cons b bs ih =>
    intro c hc
    rw [Memory.image] at hc
    split at hc
    · exact (Nat.le_succ a).trans (ih (a + 1) c hc)
    · rcases List.mem_cons.mp hc with rfl | hc
      · exact le_rfl
      · exact (Nat.le_succ a).trans (ih (a + 1) c hc)

/-- An image that fits the address space is in canonical form. -/
theorem Memory.wf_image (a : Nat) (bs : List Byte) (h : a + bs.length ≤ Config.memSize) :
    (Memory.image a bs).wf = true := by
  rw [Memory.wf_iff]
  induction bs generalizing a with
  | nil => simp [Memory.image]
  | cons b bs ih =>
    simp only [List.length_cons] at h
    obtain ⟨ih1, ih2⟩ := ih (a + 1) (by omega)
    rw [Memory.image]
    split
    · exact ⟨ih1, ih2⟩
    · next hb =>
      refine ⟨List.pairwise_cons.mpr ⟨fun d hd => Memory.image_fst_ge _ _ d hd, ih1⟩, fun c hc => ?_⟩
      rcases List.mem_cons.mp hc with rfl | hc
      · simp [Memory.entryOk, hb]; omega
      · exact ih2 c hc

/-- Outside an image, memory reads as unlisted. -/
theorem Memory.read_image_outside (a : Nat) (bs : List Byte) {a' : Nat} (h : a' < a ∨ a + bs.length ≤ a') :
    (Memory.image a bs).read a' = Memory.unlisted a' := by
  induction bs generalizing a with
  | nil => rfl
  | cons b bs ih =>
    simp only [List.length_cons] at h
    rw [Memory.image]
    split
    · exact ih (a + 1) (by omega)
    · rw [Memory.read_cons, if_neg (show (a, b).1 ≠ a' by simp; omega), ih (a + 1) (by omega)]

/-- An image reads back the bytes laid out. -/
theorem Memory.read_image (a : Nat) (bs : List Byte) (j : Nat) (h : j < bs.length) :
    (Memory.image a bs).read (a + j) = bs[j] := by
  induction bs generalizing a j with
  | nil => simp at h
  | cons b bs ih =>
    cases j with
    | zero =>
      rw [Memory.image]
      split
      · next hb => rw [Memory.read_image_outside _ _ (by omega)]; simp [hb]
      · simp [Memory.read_cons]
    | succ j =>
      have := ih (a + 1) j (by simpa using h)
      rw [Memory.image, show a + (j + 1) = a + 1 + j by omega]
      split
      · rw [this]; rfl
      · rw [Memory.read_cons, if_neg (show (a, b).1 ≠ a + 1 + j by simp; omega), this]; rfl

/-- From 0x200 up, an unlisted address reads as 0 (R82). -/
theorem Memory.unlisted_of_ge {a : Nat} (h : 0x200 ≤ a) : Memory.unlisted a = 0 := by
  simp [Memory.unlisted, Config.progBase, Nat.not_lt.mpr h]

theorem fontBase_le : fontBase + 80 ≤ 0x200 := by
  have := Config.fontBase.isLt
  unfold fontBase; omega

/-- The font table has 80 bytes (R97). -/
theorem length_fontTable : fontTable.length = 80 := by
  unfold fontTable
  split
  · rfl
  · rw [List.length_map, Vector.length_toList]

/-- Bits 3:0 of every row of a glyph are zero (R97). -/
theorem fontTable_low {b : Byte} (h : b ∈ fontTable) : b &&& 0x0F#8 = 0 := by
  have low : ∀ row : BitVec 4, (row ++ 0#4 : Byte) &&& 0x0F#8 = 0 := by decide
  unfold fontTable at h
  split at h
  · revert b; decide
  · obtain ⟨row, -, rfl⟩ := List.mem_map.mp h
    exact low row

/-- The font table stands at FONT_BASE (R82, R97). -/
theorem Memory.unlisted_font (j : Nat) (h : j < 80) : Memory.unlisted (fontBase + j) = fontTable.getD j 0 := by
  have := fontBase_le
  simp [Memory.unlisted, Config.progBase, show fontBase + j < 512 by omega]

/-- Below 0x200 and outside the font table, an unlisted address reads as 0 (R82). -/
theorem Memory.unlisted_of_not_font {a : Nat} (h : a < fontBase ∨ fontBase + 80 ≤ a) : Memory.unlisted a = 0 := by
  unfold Memory.unlisted
  split
  · split
    · rw [List.getD_eq_getElem?_getD, List.getElem?_eq_none (by rw [length_fontTable]; omega)]; rfl
    · rfl
  · rfl

end Sys2Proof.Machine
end

