-- ==== Sys2Proof/Laws/State.lean ====
section
/-! SUPPORT. What every field of the state holds after each update of it: one lemma per field per update, so that no proof unfolds
a record update. -/

namespace Sys2Proof.Machine

section
variable (s : State)

@[simp] theorem State.setV_v (x : Reg) (b : Byte) : (s.setV x b).v = s.v.set x.val b := rfl
@[simp] theorem State.setV_index (x : Reg) (b : Byte) : (s.setV x b).index = s.index := rfl
@[simp] theorem State.setV_pc (x : Reg) (b : Byte) : (s.setV x b).pc = s.pc := rfl
@[simp] theorem State.setV_stack (x : Reg) (b : Byte) : (s.setV x b).stack = s.stack := rfl
@[simp] theorem State.setV_sp (x : Reg) (b : Byte) : (s.setV x b).sp = s.sp := rfl
@[simp] theorem State.setV_dt (x : Reg) (b : Byte) : (s.setV x b).dt = s.dt := rfl
@[simp] theorem State.setV_st (x : Reg) (b : Byte) : (s.setV x b).st = s.st := rfl
@[simp] theorem State.setV_soundOn (x : Reg) (b : Byte) : (s.setV x b).soundOn = s.soundOn := rfl
@[simp] theorem State.setV_disp (x : Reg) (b : Byte) : (s.setV x b).disp = s.disp := rfl
@[simp] theorem State.setV_displayDirty (x : Reg) (b : Byte) : (s.setV x b).displayDirty = s.displayDirty := rfl
@[simp] theorem State.setV_keys (x : Reg) (b : Byte) : (s.setV x b).keys = s.keys := rfl
@[simp] theorem State.setV_waitActive (x : Reg) (b : Byte) : (s.setV x b).waitActive = s.waitActive := rfl
@[simp] theorem State.setV_waitReg (x : Reg) (b : Byte) : (s.setV x b).waitReg = s.waitReg := rfl
@[simp] theorem State.setV_mem (x : Reg) (b : Byte) : (s.setV x b).mem = s.mem := rfl
@[simp] theorem State.setV_sched (x : Reg) (b : Byte) : (s.setV x b).sched = s.sched := rfl
@[simp] theorem State.setV_haltReason (x : Reg) (b : Byte) : (s.setV x b).haltReason = s.haltReason := rfl
@[simp] theorem State.setV_tickRate (x : Reg) (b : Byte) : (s.setV x b).tickRate = s.tickRate := rfl
@[simp] theorem State.setV_accCpu (x : Reg) (b : Byte) : (s.setV x b).accCpu = s.accCpu := rfl
@[simp] theorem State.setV_accTimer (x : Reg) (b : Byte) : (s.setV x b).accTimer = s.accTimer := rfl
@[simp] theorem State.setV_inq (x : Reg) (b : Byte) : (s.setV x b).inq = s.inq := rfl
@[simp] theorem State.setV_outbound (x : Reg) (b : Byte) : (s.setV x b).outbound = s.outbound := rfl
@[simp] theorem State.setV_diagnostics (x : Reg) (b : Byte) : (s.setV x b).diagnostics = s.diagnostics := rfl
@[simp] theorem State.setV_loadReply (x : Reg) (b : Byte) : (s.setV x b).loadReply = s.loadReply := rfl
@[simp] theorem State.setV_tornDown (x : Reg) (b : Byte) : (s.setV x b).tornDown = s.tornDown := rfl
@[simp] theorem State.setV_phase (x : Reg) (b : Byte) : (s.setV x b).phase = s.phase := rfl
@[simp] theorem State.setV_elapsed (x : Reg) (b : Byte) : (s.setV x b).elapsed = s.elapsed := rfl
@[simp] theorem State.setV_results (x : Reg) (b : Byte) : (s.setV x b).results = s.results := rfl
@[simp] theorem State.setV_fatal (x : Reg) (b : Byte) : (s.setV x b).fatal = s.fatal := rfl
@[simp] theorem State.setV_draws (x : Reg) (b : Byte) : (s.setV x b).draws = s.draws := rfl
@[simp] theorem State.setV_host (x : Reg) (b : Byte) : (s.setV x b).host = s.host := rfl

@[simp] theorem State.setIndex_v (a : Word) : (s.setIndex a).v = s.v := rfl
@[simp] theorem State.setIndex_index (a : Word) : (s.setIndex a).index = a := rfl
@[simp] theorem State.setIndex_pc (a : Word) : (s.setIndex a).pc = s.pc := rfl
@[simp] theorem State.setIndex_stack (a : Word) : (s.setIndex a).stack = s.stack := rfl
@[simp] theorem State.setIndex_sp (a : Word) : (s.setIndex a).sp = s.sp := rfl
@[simp] theorem State.setIndex_dt (a : Word) : (s.setIndex a).dt = s.dt := rfl
@[simp] theorem State.setIndex_st (a : Word) : (s.setIndex a).st = s.st := rfl
@[simp] theorem State.setIndex_soundOn (a : Word) : (s.setIndex a).soundOn = s.soundOn := rfl
@[simp] theorem State.setIndex_disp (a : Word) : (s.setIndex a).disp = s.disp := rfl
@[simp] theorem State.setIndex_displayDirty (a : Word) : (s.setIndex a).displayDirty = s.displayDirty := rfl
@[simp] theorem State.setIndex_keys (a : Word) : (s.setIndex a).keys = s.keys := rfl
@[simp] theorem State.setIndex_waitActive (a : Word) : (s.setIndex a).waitActive = s.waitActive := rfl
@[simp] theorem State.setIndex_waitReg (a : Word) : (s.setIndex a).waitReg = s.waitReg := rfl
@[simp] theorem State.setIndex_mem (a : Word) : (s.setIndex a).mem = s.mem := rfl
@[simp] theorem State.setIndex_sched (a : Word) : (s.setIndex a).sched = s.sched := rfl
@[simp] theorem State.setIndex_haltReason (a : Word) : (s.setIndex a).haltReason = s.haltReason := rfl
@[simp] theorem State.setIndex_tickRate (a : Word) : (s.setIndex a).tickRate = s.tickRate := rfl
@[simp] theorem State.setIndex_accCpu (a : Word) : (s.setIndex a).accCpu = s.accCpu := rfl
@[simp] theorem State.setIndex_accTimer (a : Word) : (s.setIndex a).accTimer = s.accTimer := rfl
@[simp] theorem State.setIndex_inq (a : Word) : (s.setIndex a).inq = s.inq := rfl
@[simp] theorem State.setIndex_outbound (a : Word) : (s.setIndex a).outbound = s.outbound := rfl
@[simp] theorem State.setIndex_diagnostics (a : Word) : (s.setIndex a).diagnostics = s.diagnostics := rfl
@[simp] theorem State.setIndex_loadReply (a : Word) : (s.setIndex a).loadReply = s.loadReply := rfl
@[simp] theorem State.setIndex_tornDown (a : Word) : (s.setIndex a).tornDown = s.tornDown := rfl
@[simp] theorem State.setIndex_phase (a : Word) : (s.setIndex a).phase = s.phase := rfl
@[simp] theorem State.setIndex_elapsed (a : Word) : (s.setIndex a).elapsed = s.elapsed := rfl
@[simp] theorem State.setIndex_results (a : Word) : (s.setIndex a).results = s.results := rfl
@[simp] theorem State.setIndex_fatal (a : Word) : (s.setIndex a).fatal = s.fatal := rfl
@[simp] theorem State.setIndex_draws (a : Word) : (s.setIndex a).draws = s.draws := rfl
@[simp] theorem State.setIndex_host (a : Word) : (s.setIndex a).host = s.host := rfl

@[simp] theorem State.setPc_v (a : Word) : (s.setPc a).v = s.v := rfl
@[simp] theorem State.setPc_index (a : Word) : (s.setPc a).index = s.index := rfl
@[simp] theorem State.setPc_pc (a : Word) : (s.setPc a).pc = a := rfl
@[simp] theorem State.setPc_stack (a : Word) : (s.setPc a).stack = s.stack := rfl
@[simp] theorem State.setPc_sp (a : Word) : (s.setPc a).sp = s.sp := rfl
@[simp] theorem State.setPc_dt (a : Word) : (s.setPc a).dt = s.dt := rfl
@[simp] theorem State.setPc_st (a : Word) : (s.setPc a).st = s.st := rfl
@[simp] theorem State.setPc_soundOn (a : Word) : (s.setPc a).soundOn = s.soundOn := rfl
@[simp] theorem State.setPc_disp (a : Word) : (s.setPc a).disp = s.disp := rfl
@[simp] theorem State.setPc_displayDirty (a : Word) : (s.setPc a).displayDirty = s.displayDirty := rfl
@[simp] theorem State.setPc_keys (a : Word) : (s.setPc a).keys = s.keys := rfl
@[simp] theorem State.setPc_waitActive (a : Word) : (s.setPc a).waitActive = s.waitActive := rfl
@[simp] theorem State.setPc_waitReg (a : Word) : (s.setPc a).waitReg = s.waitReg := rfl
@[simp] theorem State.setPc_mem (a : Word) : (s.setPc a).mem = s.mem := rfl
@[simp] theorem State.setPc_sched (a : Word) : (s.setPc a).sched = s.sched := rfl
@[simp] theorem State.setPc_haltReason (a : Word) : (s.setPc a).haltReason = s.haltReason := rfl
@[simp] theorem State.setPc_tickRate (a : Word) : (s.setPc a).tickRate = s.tickRate := rfl
@[simp] theorem State.setPc_accCpu (a : Word) : (s.setPc a).accCpu = s.accCpu := rfl
@[simp] theorem State.setPc_accTimer (a : Word) : (s.setPc a).accTimer = s.accTimer := rfl
@[simp] theorem State.setPc_inq (a : Word) : (s.setPc a).inq = s.inq := rfl
@[simp] theorem State.setPc_outbound (a : Word) : (s.setPc a).outbound = s.outbound := rfl
@[simp] theorem State.setPc_diagnostics (a : Word) : (s.setPc a).diagnostics = s.diagnostics := rfl
@[simp] theorem State.setPc_loadReply (a : Word) : (s.setPc a).loadReply = s.loadReply := rfl
@[simp] theorem State.setPc_tornDown (a : Word) : (s.setPc a).tornDown = s.tornDown := rfl
@[simp] theorem State.setPc_phase (a : Word) : (s.setPc a).phase = s.phase := rfl
@[simp] theorem State.setPc_elapsed (a : Word) : (s.setPc a).elapsed = s.elapsed := rfl
@[simp] theorem State.setPc_results (a : Word) : (s.setPc a).results = s.results := rfl
@[simp] theorem State.setPc_fatal (a : Word) : (s.setPc a).fatal = s.fatal := rfl
@[simp] theorem State.setPc_draws (a : Word) : (s.setPc a).draws = s.draws := rfl
@[simp] theorem State.setPc_host (a : Word) : (s.setPc a).host = s.host := rfl

@[simp] theorem State.emit_v (e : StepResult) : (s.emit e).v = s.v := rfl
@[simp] theorem State.emit_index (e : StepResult) : (s.emit e).index = s.index := rfl
@[simp] theorem State.emit_pc (e : StepResult) : (s.emit e).pc = s.pc := rfl
@[simp] theorem State.emit_stack (e : StepResult) : (s.emit e).stack = s.stack := rfl
@[simp] theorem State.emit_sp (e : StepResult) : (s.emit e).sp = s.sp := rfl
@[simp] theorem State.emit_dt (e : StepResult) : (s.emit e).dt = s.dt := rfl
@[simp] theorem State.emit_st (e : StepResult) : (s.emit e).st = s.st := rfl
@[simp] theorem State.emit_soundOn (e : StepResult) : (s.emit e).soundOn = s.soundOn := rfl
@[simp] theorem State.emit_disp (e : StepResult) : (s.emit e).disp = s.disp := rfl
@[simp] theorem State.emit_displayDirty (e : StepResult) : (s.emit e).displayDirty = s.displayDirty := rfl
@[simp] theorem State.emit_keys (e : StepResult) : (s.emit e).keys = s.keys := rfl
@[simp] theorem State.emit_waitActive (e : StepResult) : (s.emit e).waitActive = s.waitActive := rfl
@[simp] theorem State.emit_waitReg (e : StepResult) : (s.emit e).waitReg = s.waitReg := rfl
@[simp] theorem State.emit_mem (e : StepResult) : (s.emit e).mem = s.mem := rfl
@[simp] theorem State.emit_sched (e : StepResult) : (s.emit e).sched = s.sched := rfl
@[simp] theorem State.emit_haltReason (e : StepResult) : (s.emit e).haltReason = s.haltReason := rfl
@[simp] theorem State.emit_tickRate (e : StepResult) : (s.emit e).tickRate = s.tickRate := rfl
@[simp] theorem State.emit_accCpu (e : StepResult) : (s.emit e).accCpu = s.accCpu := rfl
@[simp] theorem State.emit_accTimer (e : StepResult) : (s.emit e).accTimer = s.accTimer := rfl
@[simp] theorem State.emit_inq (e : StepResult) : (s.emit e).inq = s.inq := rfl
@[simp] theorem State.emit_outbound (e : StepResult) : (s.emit e).outbound = s.outbound := rfl
@[simp] theorem State.emit_diagnostics (e : StepResult) : (s.emit e).diagnostics = s.diagnostics := rfl
@[simp] theorem State.emit_loadReply (e : StepResult) : (s.emit e).loadReply = s.loadReply := rfl
@[simp] theorem State.emit_tornDown (e : StepResult) : (s.emit e).tornDown = s.tornDown := rfl
@[simp] theorem State.emit_phase (e : StepResult) : (s.emit e).phase = s.phase := rfl
@[simp] theorem State.emit_elapsed (e : StepResult) : (s.emit e).elapsed = s.elapsed := rfl
@[simp] theorem State.emit_results (e : StepResult) : (s.emit e).results = s.results ++ [e] := rfl
@[simp] theorem State.emit_fatal (e : StepResult) : (s.emit e).fatal = s.fatal := rfl
@[simp] theorem State.emit_draws (e : StepResult) : (s.emit e).draws = s.draws := rfl
@[simp] theorem State.emit_host (e : StepResult) : (s.emit e).host = s.host := rfl

@[simp] theorem State.storeBytes_v (a : Nat) (bs : List Byte) : (s.storeBytes a bs).v = s.v := rfl
@[simp] theorem State.storeBytes_index (a : Nat) (bs : List Byte) : (s.storeBytes a bs).index = s.index := rfl
@[simp] theorem State.storeBytes_pc (a : Nat) (bs : List Byte) : (s.storeBytes a bs).pc = s.pc := rfl
@[simp] theorem State.storeBytes_stack (a : Nat) (bs : List Byte) : (s.storeBytes a bs).stack = s.stack := rfl
@[simp] theorem State.storeBytes_sp (a : Nat) (bs : List Byte) : (s.storeBytes a bs).sp = s.sp := rfl
@[simp] theorem State.storeBytes_dt (a : Nat) (bs : List Byte) : (s.storeBytes a bs).dt = s.dt := rfl
@[simp] theorem State.storeBytes_st (a : Nat) (bs : List Byte) : (s.storeBytes a bs).st = s.st := rfl
@[simp] theorem State.storeBytes_soundOn (a : Nat) (bs : List Byte) : (s.storeBytes a bs).soundOn = s.soundOn := rfl
@[simp] theorem State.storeBytes_disp (a : Nat) (bs : List Byte) : (s.storeBytes a bs).disp = s.disp := rfl
@[simp] theorem State.storeBytes_displayDirty (a : Nat) (bs : List Byte) : (s.storeBytes a bs).displayDirty = s.displayDirty := rfl
@[simp] theorem State.storeBytes_keys (a : Nat) (bs : List Byte) : (s.storeBytes a bs).keys = s.keys := rfl
@[simp] theorem State.storeBytes_waitActive (a : Nat) (bs : List Byte) : (s.storeBytes a bs).waitActive = s.waitActive := rfl
@[simp] theorem State.storeBytes_waitReg (a : Nat) (bs : List Byte) : (s.storeBytes a bs).waitReg = s.waitReg := rfl
@[simp] theorem State.storeBytes_mem (a : Nat) (bs : List Byte) : (s.storeBytes a bs).mem = s.mem.writeBytes a bs := rfl
@[simp] theorem State.storeBytes_sched (a : Nat) (bs : List Byte) : (s.storeBytes a bs).sched = s.sched := rfl
@[simp] theorem State.storeBytes_haltReason (a : Nat) (bs : List Byte) : (s.storeBytes a bs).haltReason = s.haltReason := rfl
@[simp] theorem State.storeBytes_tickRate (a : Nat) (bs : List Byte) : (s.storeBytes a bs).tickRate = s.tickRate := rfl
@[simp] theorem State.storeBytes_accCpu (a : Nat) (bs : List Byte) : (s.storeBytes a bs).accCpu = s.accCpu := rfl
@[simp] theorem State.storeBytes_accTimer (a : Nat) (bs : List Byte) : (s.storeBytes a bs).accTimer = s.accTimer := rfl
@[simp] theorem State.storeBytes_inq (a : Nat) (bs : List Byte) : (s.storeBytes a bs).inq = s.inq := rfl
@[simp] theorem State.storeBytes_outbound (a : Nat) (bs : List Byte) : (s.storeBytes a bs).outbound = s.outbound := rfl
@[simp] theorem State.storeBytes_diagnostics (a : Nat) (bs : List Byte) : (s.storeBytes a bs).diagnostics = s.diagnostics := rfl
@[simp] theorem State.storeBytes_loadReply (a : Nat) (bs : List Byte) : (s.storeBytes a bs).loadReply = s.loadReply := rfl
@[simp] theorem State.storeBytes_tornDown (a : Nat) (bs : List Byte) : (s.storeBytes a bs).tornDown = s.tornDown := rfl
@[simp] theorem State.storeBytes_phase (a : Nat) (bs : List Byte) : (s.storeBytes a bs).phase = s.phase := rfl
@[simp] theorem State.storeBytes_elapsed (a : Nat) (bs : List Byte) : (s.storeBytes a bs).elapsed = s.elapsed := rfl
@[simp] theorem State.storeBytes_results (a : Nat) (bs : List Byte) : (s.storeBytes a bs).results = s.results := rfl
@[simp] theorem State.storeBytes_fatal (a : Nat) (bs : List Byte) : (s.storeBytes a bs).fatal = s.fatal := rfl
@[simp] theorem State.storeBytes_draws (a : Nat) (bs : List Byte) : (s.storeBytes a bs).draws = s.draws := rfl
@[simp] theorem State.storeBytes_host (a : Nat) (bs : List Byte) : (s.storeBytes a bs).host = s.host := rfl

@[simp] theorem State.setKey_v (k : Reg) (b : Bool) : (s.setKey k b).v = s.v := rfl
@[simp] theorem State.setKey_index (k : Reg) (b : Bool) : (s.setKey k b).index = s.index := rfl
@[simp] theorem State.setKey_pc (k : Reg) (b : Bool) : (s.setKey k b).pc = s.pc := rfl
@[simp] theorem State.setKey_stack (k : Reg) (b : Bool) : (s.setKey k b).stack = s.stack := rfl
@[simp] theorem State.setKey_sp (k : Reg) (b : Bool) : (s.setKey k b).sp = s.sp := rfl
@[simp] theorem State.setKey_dt (k : Reg) (b : Bool) : (s.setKey k b).dt = s.dt := rfl
@[simp] theorem State.setKey_st (k : Reg) (b : Bool) : (s.setKey k b).st = s.st := rfl
@[simp] theorem State.setKey_soundOn (k : Reg) (b : Bool) : (s.setKey k b).soundOn = s.soundOn := rfl
@[simp] theorem State.setKey_disp (k : Reg) (b : Bool) : (s.setKey k b).disp = s.disp := rfl
@[simp] theorem State.setKey_displayDirty (k : Reg) (b : Bool) : (s.setKey k b).displayDirty = s.displayDirty := rfl
@[simp] theorem State.setKey_keys (k : Reg) (b : Bool) : (s.setKey k b).keys = s.keys.set k.val b := rfl
@[simp] theorem State.setKey_waitActive (k : Reg) (b : Bool) : (s.setKey k b).waitActive = s.waitActive := rfl
@[simp] theorem State.setKey_waitReg (k : Reg) (b : Bool) : (s.setKey k b).waitReg = s.waitReg := rfl
@[simp] theorem State.setKey_mem (k : Reg) (b : Bool) : (s.setKey k b).mem = s.mem := rfl
@[simp] theorem State.setKey_sched (k : Reg) (b : Bool) : (s.setKey k b).sched = s.sched := rfl
@[simp] theorem State.setKey_haltReason (k : Reg) (b : Bool) : (s.setKey k b).haltReason = s.haltReason := rfl
@[simp] theorem State.setKey_tickRate (k : Reg) (b : Bool) : (s.setKey k b).tickRate = s.tickRate := rfl
@[simp] theorem State.setKey_accCpu (k : Reg) (b : Bool) : (s.setKey k b).accCpu = s.accCpu := rfl
@[simp] theorem State.setKey_accTimer (k : Reg) (b : Bool) : (s.setKey k b).accTimer = s.accTimer := rfl
@[simp] theorem State.setKey_inq (k : Reg) (b : Bool) : (s.setKey k b).inq = s.inq := rfl
@[simp] theorem State.setKey_outbound (k : Reg) (b : Bool) : (s.setKey k b).outbound = s.outbound := rfl
@[simp] theorem State.setKey_diagnostics (k : Reg) (b : Bool) : (s.setKey k b).diagnostics = s.diagnostics := rfl
@[simp] theorem State.setKey_loadReply (k : Reg) (b : Bool) : (s.setKey k b).loadReply = s.loadReply := rfl
@[simp] theorem State.setKey_tornDown (k : Reg) (b : Bool) : (s.setKey k b).tornDown = s.tornDown := rfl
@[simp] theorem State.setKey_phase (k : Reg) (b : Bool) : (s.setKey k b).phase = s.phase := rfl
@[simp] theorem State.setKey_elapsed (k : Reg) (b : Bool) : (s.setKey k b).elapsed = s.elapsed := rfl
@[simp] theorem State.setKey_results (k : Reg) (b : Bool) : (s.setKey k b).results = s.results := rfl
@[simp] theorem State.setKey_fatal (k : Reg) (b : Bool) : (s.setKey k b).fatal = s.fatal := rfl
@[simp] theorem State.setKey_draws (k : Reg) (b : Bool) : (s.setKey k b).draws = s.draws := rfl
@[simp] theorem State.setKey_host (k : Reg) (b : Bool) : (s.setKey k b).host = s.host := rfl

end

/-! ### Registers read after they are written (R31) -/

@[simp] theorem State.getV_setV_same (s : State) (x : Reg) (b : Byte) : (s.setV x b).getV x = b := by
  simp [State.getV]

theorem State.getV_setV_ne (s : State) {x r : Reg} (b : Byte) (h : r ≠ x) : (s.setV x b).getV r = s.getV r := by
  have : x.val ≠ r.val := fun e => h (Fin.ext e.symm)
  simp [State.getV, Vector.getElem_set_ne, this]

/-- Reading a register after a write, in one equation. -/
theorem State.getV_setV (s : State) (x r : Reg) (b : Byte) : (s.setV x b).getV r = if r = x then b else s.getV r := by
  split
  · next h => rw [h, State.getV_setV_same]
  · next h => exact State.getV_setV_ne s b h

/-- VF holds the flag after a flag write, also when the destination is VF (R150). -/
@[simp] theorem State.getV_setVFlag_regF (s : State) (x : Reg) (b f : Byte) : (s.setVFlag x b f).getV regF = f := by
  simp [State.setVFlag]

/-- The destination holds the result after a flag write, unless it is VF. -/
theorem State.getV_setVFlag_dest (s : State) {x : Reg} (b f : Byte) (h : x ≠ regF) : (s.setVFlag x b f).getV x = b := by
  rw [State.setVFlag, State.getV_setV_ne _ _ h, State.getV_setV_same]

/-- Every register but the destination and VF is unchanged by a flag write. -/
theorem State.getV_setVFlag_ne (s : State) {x r : Reg} (b f : Byte) (hx : r ≠ x) (hf : r ≠ regF) :
    (s.setVFlag x b f).getV r = s.getV r := by
  rw [State.setVFlag, State.getV_setV_ne _ _ hf, State.getV_setV_ne _ _ hx]

@[simp] theorem State.getV_setPc (s : State) (a : Word) (r : Reg) : (s.setPc a).getV r = s.getV r := rfl
@[simp] theorem State.getV_advance (s : State) (r : Reg) : s.advance.getV r = s.getV r := rfl
@[simp] theorem State.getV_setIndex (s : State) (a : Word) (r : Reg) : (s.setIndex a).getV r = s.getV r := rfl
@[simp] theorem State.getV_drawn (s : State) (r : Reg) : s.drawn.getV r = s.getV r := rfl
@[simp] theorem State.getV_emit (s : State) (e : StepResult) (r : Reg) : (s.emit e).getV r = s.getV r := rfl
@[simp] theorem State.getV_storeBytes (s : State) (a : Nat) (bs : List Byte) (r : Reg) :
    (s.storeBytes a bs).getV r = s.getV r := rfl

@[simp] theorem State.advance_pc (s : State) : s.advance.pc = s.pc + 2 := rfl
@[simp] theorem State.advance_v (s : State) : s.advance.v = s.v := rfl
@[simp] theorem State.advance_index (s : State) : s.advance.index = s.index := rfl
@[simp] theorem State.advance_stack (s : State) : s.advance.stack = s.stack := rfl
@[simp] theorem State.advance_sp (s : State) : s.advance.sp = s.sp := rfl
@[simp] theorem State.advance_dt (s : State) : s.advance.dt = s.dt := rfl
@[simp] theorem State.advance_st (s : State) : s.advance.st = s.st := rfl
@[simp] theorem State.advance_soundOn (s : State) : s.advance.soundOn = s.soundOn := rfl
@[simp] theorem State.advance_disp (s : State) : s.advance.disp = s.disp := rfl
@[simp] theorem State.advance_displayDirty (s : State) : s.advance.displayDirty = s.displayDirty := rfl
@[simp] theorem State.advance_keys (s : State) : s.advance.keys = s.keys := rfl
@[simp] theorem State.advance_waitActive (s : State) : s.advance.waitActive = s.waitActive := rfl
@[simp] theorem State.advance_waitReg (s : State) : s.advance.waitReg = s.waitReg := rfl
@[simp] theorem State.advance_mem (s : State) : s.advance.mem = s.mem := rfl
@[simp] theorem State.advance_sched (s : State) : s.advance.sched = s.sched := rfl
@[simp] theorem State.advance_haltReason (s : State) : s.advance.haltReason = s.haltReason := rfl
@[simp] theorem State.advance_tickRate (s : State) : s.advance.tickRate = s.tickRate := rfl
@[simp] theorem State.advance_accCpu (s : State) : s.advance.accCpu = s.accCpu := rfl
@[simp] theorem State.advance_accTimer (s : State) : s.advance.accTimer = s.accTimer := rfl
@[simp] theorem State.advance_inq (s : State) : s.advance.inq = s.inq := rfl
@[simp] theorem State.advance_outbound (s : State) : s.advance.outbound = s.outbound := rfl
@[simp] theorem State.advance_diagnostics (s : State) : s.advance.diagnostics = s.diagnostics := rfl
@[simp] theorem State.advance_loadReply (s : State) : s.advance.loadReply = s.loadReply := rfl
@[simp] theorem State.advance_tornDown (s : State) : s.advance.tornDown = s.tornDown := rfl
@[simp] theorem State.advance_phase (s : State) : s.advance.phase = s.phase := rfl
@[simp] theorem State.advance_elapsed (s : State) : s.advance.elapsed = s.elapsed := rfl
@[simp] theorem State.advance_results (s : State) : s.advance.results = s.results := rfl
@[simp] theorem State.advance_fatal (s : State) : s.advance.fatal = s.fatal := rfl
@[simp] theorem State.advance_draws (s : State) : s.advance.draws = s.draws := rfl
@[simp] theorem State.advance_host (s : State) : s.advance.host = s.host := rfl

@[simp] theorem State.readByte_advance (s : State) (a : Nat) : s.advance.readByte a = s.readByte a := rfl
@[simp] theorem State.readByte_setPc (s : State) (p : Word) (a : Nat) : (s.setPc p).readByte a = s.readByte a := rfl
@[simp] theorem State.readByte_setV (s : State) (x : Reg) (b : Byte) (a : Nat) :
    (s.setV x b).readByte a = s.readByte a := rfl
@[simp] theorem State.readByte_setVFlag (s : State) (x : Reg) (b f : Byte) (a : Nat) :
    (s.setVFlag x b f).readByte a = s.readByte a := rfl
@[simp] theorem State.readByte_setIndex (s : State) (i : Word) (a : Nat) : (s.setIndex i).readByte a = s.readByte a := rfl
@[simp] theorem State.readByte_emit (s : State) (e : StepResult) (a : Nat) : (s.emit e).readByte a = s.readByte a := rfl
@[simp] theorem State.readByte_drawn (s : State) (a : Nat) : s.drawn.readByte a = s.readByte a := rfl

/-- V0 to Vx come from memory at I and the others stay (R136). -/
theorem State.getV_loadFirstRegs (s : State) (x r : Reg) :
    (s.loadFirstRegs x).getV r = if r ≤ x then s.readByte (s.dataBase + r.val) else s.getV r := by
  simp [State.getV, State.loadFirstRegs]

/-- Equal registers one by one are equal register files. -/
theorem State.v_ext {s t : State} (h : ∀ r, t.getV r = s.getV r) : t.v = s.v := by
  apply Vector.ext
  intro j hj
  simpa [State.getV] using h ⟨j, hj⟩

end Sys2Proof.Machine
end

