-- ==== Sys2Proof/Laws/Ops.lean ====
section
/-! SUPPORT. One lemma per shared operation, which says once everything the operation can do. -/

namespace Sys2Proof.Machine

theorem dataInBounds_iff (a n : Nat) : dataInBounds a n = true ↔ n = 0 ∨ a + n ≤ 0x1000 := by
  simp only [dataInBounds, Bool.or_eq_true, beq_iff_eq, decide_eq_true_eq]
  rfl

/-- A data access in bounds does what it does (R84). -/
theorem State.withData_in {s : State} {n : Nat} (f : State → Result) (h : n = 0 ∨ s.index.toNat + n ≤ 0x1000) :
    s.withData n f = f s := by
  simp [State.withData, (dataInBounds_iff _ _).mpr h]

/-- A data access out of bounds takes DATA_OUT_OF_BOUNDS (R84). -/
theorem State.withData_out {s : State} {n : Nat} (f : State → Result) (hn : n ≠ 0) (h : 0x1000 < s.index.toNat + n) :
    s.withData n f = s.raiseFatal .dataOutOfBounds := by
  have : dataInBounds s.index.toNat n = false := by
    rw [← Bool.not_eq_true, dataInBounds_iff]; omega
  simp [State.withData, this]

/-- A data access is one or the other. -/
theorem State.withData_cases (s : State) (n : Nat) (f : State → Result) :
    ((n = 0 ∨ s.index.toNat + n ≤ 0x1000) ∧ s.withData n f = f s) ∨
    (n ≠ 0 ∧ 0x1000 < s.index.toNat + n ∧ s.withData n f = s.raiseFatal .dataOutOfBounds) := by
  by_cases h : n = 0 ∨ s.index.toNat + n ≤ 0x1000
  · exact .inl ⟨h, State.withData_in f h⟩
  · exact .inr ⟨by omega, by omega, State.withData_out f (by omega) (by omega)⟩

/-- A stored byte is read back (R85, R95). -/
theorem State.readByte_storeBytes (s : State) (a : Nat) (bs : List Byte) (j : Nat) (h : j < bs.length) :
    (s.storeBytes a bs).readByte (a + j) = bs[j] := Memory.read_writeBytes _ _ _ _ h

/-- A store leaves every byte outside the stored ones alone. -/
theorem State.readByte_storeBytes_outside (s : State) (a : Nat) (bs : List Byte) {a' : Nat}
    (h : a' < a ∨ a + bs.length ≤ a') : (s.storeBytes a bs).readByte a' = s.readByte a' :=
  Memory.read_writeBytes_outside _ _ _ h

@[simp] theorem length_bcdDigits (b : Byte) : (bcdDigits b).length = 3 := rfl

/-- V0 to Vx are x + 1 bytes (R135). -/
@[simp] theorem State.length_firstRegs (s : State) (x : Reg) : (s.firstRegs x).length = x.val + 1 := by
  simp only [State.firstRegs, regCount, List.length_take, Vector.length_toList]
  omega

/-- Byte r of V0 to Vx is Vr (R135). -/
theorem State.getElem_firstRegs (s : State) {x r : Reg} (h : r.val < (s.firstRegs x).length) :
    (s.firstRegs x)[r.val] = s.getV r := by
  simp [State.firstRegs, State.getV]

/-- V0 to Vx loaded changes the registers only (R136). -/
theorem State.loadFirstRegs_frame (s : State) (x : Reg) : s.loadFirstRegs x = { s with v := (s.loadFirstRegs x).v } := rfl

/-- A push with a free entry (R203). -/
theorem State.push_free {s : State} (a : Word) (f : State → Result) (h : s.sp.val < 16) :
    s.push a f = f { s with stack := s.stack.set s.sp.val a h, sp := ⟨s.sp.val + 1, by omega⟩ } := by
  simp [State.push, h]

/-- A push with all entries in use (R262). -/
theorem State.push_full {s : State} (a : Word) (f : State → Result) (h : s.sp.val = 16) :
    s.push a f = s.raiseFatal .stackOverflow := by
  simp [State.push, h]

/-- A pop of a stack that is not empty (R204). -/
theorem State.pop_some {s : State} (f : Word → State → Result) (h : 0 < s.sp.val) :
    s.pop f = f (s.stack[s.sp.val - 1]'(by have := s.sp.isLt; omega))
      { s with sp := ⟨s.sp.val - 1, by have := s.sp.isLt; omega⟩ } := by
  simp [State.pop, h]

/-- A pop of an empty stack (R263). -/
theorem State.pop_empty {s : State} (f : Word → State → Result) (h : s.sp.val = 0) :
    s.pop f = s.raiseFatal .stackUnderflow := by
  simp [State.pop, h]

theorem State.skipIf_eq (s : State) (c : Bool) : s.skipIf c = s.setPc (s.pc + if c then 4 else 2) := by
  cases c <;> rfl

/-- SoundCheck writes the latch and the result list only (R243). -/
theorem State.soundCheck_eq (s : State) :
    s.soundCheck = { s with
      soundOn := decide (s.st ≠ 0)
      results := s.results ++ if decide (s.st ≠ 0) = s.soundOn then [] else [.soundStateChanged (decide (s.st ≠ 0))] } := by
  unfold State.soundCheck
  generalize decide (s.st ≠ 0) = on
  by_cases h : on = s.soundOn
  · simp [h]
  · simp [h, State.emit]

/-- The fetch at a valid PC (R86). -/
theorem State.fetch_in {s : State} (h : s.pc.toNat ≤ 0xFFE) :
    s.fetch = some (wordOfBytes (s.readByte s.pc.toNat) (s.readByte (s.pc.toNat + 1))) := by
  simp [State.fetch, Nat.not_lt.mpr h]

/-- The fetch at a PC without one (R86). -/
theorem State.fetch_out {s : State} (h : 0xFFE < s.pc.toNat) : s.fetch = none := by
  simp [State.fetch, h]

/-- A timer after k decrements: k less, floored at 0 (R280). -/
theorem decrementTimer_toNat (t : Byte) : (decrementTimer t).toNat = t.toNat - 1 := by
  unfold decrementTimer
  split
  · next h => simp [h]
  · next h =>
    have : t.toNat ≠ 0 := fun e => h (BitVec.eq_of_toNat_eq (by simpa using e))
    rw [BitVec.toNat_sub]; simp; omega

theorem State.decrementTimersBy_dt (s : State) (k : Nat) : (s.decrementTimersBy k).dt.toNat = s.dt.toNat - k := by
  induction k generalizing s with
  | zero => rfl
  | succ k ih => rw [State.decrementTimersBy, ih, State.decrementTimers, decrementTimer_toNat]; omega

theorem State.decrementTimersBy_st (s : State) (k : Nat) : (s.decrementTimersBy k).st.toNat = s.st.toNat - k := by
  induction k generalizing s with
  | zero => rfl
  | succ k ih => rw [State.decrementTimersBy, ih, State.decrementTimers, decrementTimer_toNat]; omega

/-- Decrements change the two timers only. -/
theorem State.decrementTimersBy_frame (s : State) (k : Nat) :
    s.decrementTimersBy k = { s with dt := (s.decrementTimersBy k).dt, st := (s.decrementTimersBy k).st } := by
  induction k generalizing s with
  | zero => rfl
  | succ k ih => rw [State.decrementTimersBy, ih]; rfl

end Sys2Proof.Machine
end

