-- ==== Sys2Proof/Laws/Exec.lean ====
section
/-! SUPPORT. What every instruction has in common: it answers a next state, and either it is fatal and changes nothing else, or it
leaves the serializer's tick where it stands. -/

namespace Sys2Proof.Machine

/-- `exec` answers a next state, for every instruction in every state. -/
theorem exec_answers (i : Instr) (s : State) : ∃ t, exec i s = .next t := by
  cases i
  case call => simp only [exec, execCall, State.push, State.raiseFatal]; split <;> exact ⟨_, rfl⟩
  case ret => simp only [exec, execRet, State.pop, State.raiseFatal]; split <;> exact ⟨_, rfl⟩
  case drw => simp only [exec, execDrw, State.withData, State.raiseFatal]; split <;> exact ⟨_, rfl⟩
  case ldB => simp only [exec, execLdB, State.withData, State.raiseFatal]; split <;> exact ⟨_, rfl⟩
  case storeRegs => simp only [exec, execStoreRegs, State.withData, State.raiseFatal]; split <;> exact ⟨_, rfl⟩
  case loadRegs => simp only [exec, execLoadRegs, State.withData, State.raiseFatal]; split <;> exact ⟨_, rfl⟩
  all_goals exact ⟨_, rfl⟩

theorem State.skipIf_tick (s : State) (c : Bool) :
    (s.skipIf c).tornDown = s.tornDown ∧ (s.skipIf c).sched = s.sched ∧ (s.skipIf c).host = s.host ∧ (s.skipIf c).phase = s.phase ∧
      (s.skipIf c).fatal = s.fatal := by
  cases c <;> exact ⟨rfl, rfl, rfl, rfl, rfl⟩

/-- An instruction keeps the session, `sched`, what the host will do and, unless it is fatal, the phase of the tick and its fatal reason. -/
theorem exec_tick {i : Instr} {s t : State} (h : exec i s = .next t) :
    t.tornDown = s.tornDown ∧ t.sched = s.sched ∧ t.host = s.host ∧
      ((t.phase = s.phase ∧ t.fatal = s.fatal) ∨ ∃ r, t = s.fatalled r) := by
  have skip : ∀ c, t = s.skipIf c → t.tornDown = s.tornDown ∧ t.sched = s.sched ∧ t.host = s.host ∧
      ((t.phase = s.phase ∧ t.fatal = s.fatal) ∨ ∃ r, t = s.fatalled r) := by
    rintro c rfl
    obtain ⟨h1, h2, h3, h4⟩ := s.skipIf_tick c
    exact ⟨h1, h2, h3, .inl h4⟩
  have fat : ∀ r, s.raiseFatal r = .next t → t.tornDown = s.tornDown ∧ t.sched = s.sched ∧ t.host = s.host ∧
      ((t.phase = s.phase ∧ t.fatal = s.fatal) ∨ ∃ r, t = s.fatalled r) := by
    intro r h
    obtain rfl := Host.Outcome.next.inj h
    exact ⟨rfl, rfl, rfl, .inr ⟨r, rfl⟩⟩
  cases i
  case seImm => exact skip _ (Host.Outcome.next.inj h).symm
  case sneImm => exact skip _ (Host.Outcome.next.inj h).symm
  case seReg => exact skip _ (Host.Outcome.next.inj h).symm
  case sneReg => exact skip _ (Host.Outcome.next.inj h).symm
  case skp => exact skip _ (Host.Outcome.next.inj h).symm
  case sknp => exact skip _ (Host.Outcome.next.inj h).symm
  case call =>
    simp only [exec, execCall, State.push] at h
    split at h
    · obtain rfl := Host.Outcome.next.inj h; exact ⟨rfl, rfl, rfl, .inl ⟨rfl, rfl⟩⟩
    · exact fat _ h
  case ret =>
    simp only [exec, execRet, State.pop] at h
    split at h
    · obtain rfl := Host.Outcome.next.inj h; exact ⟨rfl, rfl, rfl, .inl ⟨rfl, rfl⟩⟩
    · exact fat _ h
  case drw =>
    simp only [exec, execDrw, State.withData] at h
    split at h
    · obtain rfl := Host.Outcome.next.inj h; exact ⟨rfl, rfl, rfl, .inl ⟨rfl, rfl⟩⟩
    · exact fat _ h
  case ldB =>
    simp only [exec, execLdB, State.withData] at h
    split at h
    · obtain rfl := Host.Outcome.next.inj h; exact ⟨rfl, rfl, rfl, .inl ⟨rfl, rfl⟩⟩
    · exact fat _ h
  case storeRegs =>
    simp only [exec, execStoreRegs, State.withData] at h
    split at h
    · obtain rfl := Host.Outcome.next.inj h; exact ⟨rfl, rfl, rfl, .inl ⟨rfl, rfl⟩⟩
    · exact fat _ h
  case loadRegs =>
    simp only [exec, execLoadRegs, State.withData, State.done] at h
    split at h
    · obtain rfl := Host.Outcome.next.inj h
      simp only [State.advance_tornDown, State.advance_sched, State.advance_host, State.advance_phase, State.advance_fatal]
      simp [State.loadFirstRegs]
    · exact fat _ h
  case ldStVx =>
    simp only [exec, execLdStVx, State.soundCheck_eq] at h
    obtain rfl := Host.Outcome.next.inj h
    exact ⟨rfl, rfl, rfl, .inl ⟨rfl, rfl⟩⟩
  all_goals
    obtain rfl := Host.Outcome.next.inj h
    exact ⟨rfl, rfl, rfl, .inl ⟨rfl, rfl⟩⟩

end Sys2Proof.Machine
end

