-- ==== Sys2Proof/Laws/PerInstr.lean ====
section
/-! SUPPORT. A law of every instruction as syntax: its word carries the primary opcode of its row of spec/opcode_table.json
(30_encoding.md R107). -/

namespace Sys2Proof.Laws

/-- The primary opcode of an instruction's row. -/
def EncodedRow.opcode : Instr → Nat
  | .cls | .ret => 0x0
  | .jp _ => 0x1
  | .call _ => 0x2
  | .seImm _ _ => 0x3
  | .sneImm _ _ => 0x4
  | .seReg _ _ => 0x5
  | .ldImm _ _ => 0x6
  | .addImm _ _ => 0x7
  | .ldReg _ _ | .orReg _ _ | .andReg _ _ | .xorReg _ _ | .addReg _ _ | .sub _ _ | .shr _ _ | .subn _ _ | .shl _ _ => 0x8
  | .sneReg _ _ => 0x9
  | .ldI _ => 0xA
  | .jpV0 _ => 0xB
  | .rnd _ _ => 0xC
  | .drw _ _ _ => 0xD
  | .skp _ | .sknp _ => 0xE
  | .ldVxDt _ | .ldVxK _ | .ldDtVx _ | .ldStVx _ | .addI _ | .ldF _ | .ldB _ | .storeRegs _ | .loadRegs _ => 0xF

/-- A well-formed instruction's word has the opcode of its row in bits 15 to 12. -/
def EncodedRow.Statement (i : Instr) : Prop :=
  i.wellFormed = true → (opOf (encodeWord i)).toNat = EncodedRow.opcode i

theorem EncodedRow.cls : EncodedRow.Statement .cls :=
  fun _ => by decide

theorem EncodedRow.ret : EncodedRow.Statement .ret :=
  fun _ => by decide

theorem EncodedRow.jp (nnn : BitVec 12) : EncodedRow.Statement (.jp nnn) :=
  fun _ => (fields_encNnn (by decide) _).1

theorem EncodedRow.call (nnn : BitVec 12) : EncodedRow.Statement (.call nnn) :=
  fun _ => (fields_encNnn (by decide) _).1

theorem EncodedRow.seImm (x : Reg) (kk : Byte) : EncodedRow.Statement (.seImm x kk) :=
  fun _ => (fields_encXkk (by decide) _ _).1

theorem EncodedRow.sneImm (x : Reg) (kk : Byte) : EncodedRow.Statement (.sneImm x kk) :=
  fun _ => (fields_encXkk (by decide) _ _).1

theorem EncodedRow.seReg (x y : Reg) : EncodedRow.Statement (.seReg x y) :=
  fun _ => (fields_encXyn (by decide) (by decide) _ _).1

theorem EncodedRow.ldImm (x : Reg) (kk : Byte) : EncodedRow.Statement (.ldImm x kk) :=
  fun _ => (fields_encXkk (by decide) _ _).1

theorem EncodedRow.addImm (x : Reg) (kk : Byte) : EncodedRow.Statement (.addImm x kk) :=
  fun _ => (fields_encXkk (by decide) _ _).1

theorem EncodedRow.ldReg (x y : Reg) : EncodedRow.Statement (.ldReg x y) :=
  fun _ => (fields_encXyn (by decide) (by decide) _ _).1

theorem EncodedRow.orReg (x y : Reg) : EncodedRow.Statement (.orReg x y) :=
  fun _ => (fields_encXyn (by decide) (by decide) _ _).1

theorem EncodedRow.andReg (x y : Reg) : EncodedRow.Statement (.andReg x y) :=
  fun _ => (fields_encXyn (by decide) (by decide) _ _).1

theorem EncodedRow.xorReg (x y : Reg) : EncodedRow.Statement (.xorReg x y) :=
  fun _ => (fields_encXyn (by decide) (by decide) _ _).1

theorem EncodedRow.addReg (x y : Reg) : EncodedRow.Statement (.addReg x y) :=
  fun _ => (fields_encXyn (by decide) (by decide) _ _).1

theorem EncodedRow.sub (x y : Reg) : EncodedRow.Statement (.sub x y) :=
  fun _ => (fields_encXyn (by decide) (by decide) _ _).1

theorem EncodedRow.shr (x y : Reg) : EncodedRow.Statement (.shr x y) :=
  fun _ => (fields_encXyn (by decide) (by decide) _ _).1

theorem EncodedRow.subn (x y : Reg) : EncodedRow.Statement (.subn x y) :=
  fun _ => (fields_encXyn (by decide) (by decide) _ _).1

theorem EncodedRow.shl (x y : Reg) : EncodedRow.Statement (.shl x y) :=
  fun _ => (fields_encXyn (by decide) (by decide) _ _).1

theorem EncodedRow.sneReg (x y : Reg) : EncodedRow.Statement (.sneReg x y) :=
  fun _ => (fields_encXyn (by decide) (by decide) _ _).1

theorem EncodedRow.ldI (nnn : BitVec 12) : EncodedRow.Statement (.ldI nnn) :=
  fun _ => (fields_encNnn (by decide) _).1

theorem EncodedRow.jpV0 (nnn : BitVec 12) : EncodedRow.Statement (.jpV0 nnn) :=
  fun _ => (fields_encNnn (by decide) _).1

theorem EncodedRow.rnd (x : Reg) (kk : Byte) : EncodedRow.Statement (.rnd x kk) :=
  fun _ => (fields_encXkk (by decide) _ _).1

theorem EncodedRow.drw (x y : Reg) (n : Nat) : EncodedRow.Statement (.drw x y n) :=
  fun h => (fields_encXyn (by decide) (of_decide_eq_true h) _ _).1

theorem EncodedRow.skp (x : Reg) : EncodedRow.Statement (.skp x) :=
  fun _ => (fields_encXkk (by decide) _ _).1

theorem EncodedRow.sknp (x : Reg) : EncodedRow.Statement (.sknp x) :=
  fun _ => (fields_encXkk (by decide) _ _).1

theorem EncodedRow.ldVxDt (x : Reg) : EncodedRow.Statement (.ldVxDt x) :=
  fun _ => (fields_encXkk (by decide) _ _).1

theorem EncodedRow.ldVxK (x : Reg) : EncodedRow.Statement (.ldVxK x) :=
  fun _ => (fields_encXkk (by decide) _ _).1

theorem EncodedRow.ldDtVx (x : Reg) : EncodedRow.Statement (.ldDtVx x) :=
  fun _ => (fields_encXkk (by decide) _ _).1

theorem EncodedRow.ldStVx (x : Reg) : EncodedRow.Statement (.ldStVx x) :=
  fun _ => (fields_encXkk (by decide) _ _).1

theorem EncodedRow.addI (x : Reg) : EncodedRow.Statement (.addI x) :=
  fun _ => (fields_encXkk (by decide) _ _).1

theorem EncodedRow.ldF (x : Reg) : EncodedRow.Statement (.ldF x) :=
  fun _ => (fields_encXkk (by decide) _ _).1

theorem EncodedRow.ldB (x : Reg) : EncodedRow.Statement (.ldB x) :=
  fun _ => (fields_encXkk (by decide) _ _).1

theorem EncodedRow.storeRegs (x : Reg) : EncodedRow.Statement (.storeRegs x) :=
  fun _ => (fields_encXkk (by decide) _ _).1

theorem EncodedRow.loadRegs (x : Reg) : EncodedRow.Statement (.loadRegs x) :=
  fun _ => (fields_encXkk (by decide) _ _).1

end Sys2Proof.Laws
end

