-- ==== Sys2Proof/Laws/Tick.lean ====
section
/-! SUPPORT. What the phases of a tick do, said once: the lists they send, the frame, the decrements, and that `exec` answers a
next state. -/

namespace Sys2Proof.Machine

/-! ### Lists of results -/

theorem eventsOf_eq (rs : List StepResult) : eventsOf rs = rs.filterMap StepResult.outEvent := by
  induction rs with
  | nil => rfl
  | cons r rs ih => cases r <;> simp [eventsOf, ih, List.filterMap_cons, StepResult.outEvent]

theorem diagnosticsOf_eq (rs : List StepResult) : diagnosticsOf rs = rs.filterMap StepResult.diagnosticOf := by
  induction rs with
  | nil => rfl
  | cons r rs ih => cases r <;> simp [diagnosticsOf, ih, List.filterMap_cons, StepResult.diagnosticOf]

@[simp] theorem soundsOf_append (rs qs : List StepResult) : soundsOf (rs ++ qs) = soundsOf rs ++ soundsOf qs := by
  induction rs with
  | nil => rfl
  | cons r rs ih => cases r <;> simp [soundsOf, ih]

/-- A frame dropped from the channel leaves the others in their order (R296). -/
theorem dropFrameAt_sublist (n : Nat) (es : List OutEvent) : (dropFrameAt n es).Sublist es := by
  induction es generalizing n with
  | nil => cases n <;> simp [dropFrameAt]
  | cons e es ih =>
    cases n with
    | zero => simp only [dropFrameAt]; split <;> simp
    | succ n => exact (ih n).cons_cons e

/-! ### The frame -/

theorem flatMap_rows (rows : List (Vector Bool 64)) :
    (rows.flatMap Vector.toList).length = 64 * rows.length ∧
    ∀ x y (hx : x < 64) (hy : y < rows.length), (rows.flatMap Vector.toList)[64 * y + x]? = some (rows[y][x]) := by
  induction rows with
  | nil => simp
  | cons row rows ih =>
    refine ⟨by simp [ih.1, List.flatMap_cons]; omega, fun x y hx hy => ?_⟩
    rw [List.flatMap_cons]
    cases y with
    | zero => rw [List.getElem?_append_left (by simpa using hx)]; simp [hx]
    | succ y =>
      rw [List.getElem?_append_right (by simp; omega), Vector.length_toList,
        show 64 * (y + 1) + x - 64 = 64 * y + x by omega, ih.2 x y hx (by simpa using hy)]
      simp

/-- A frame has 2048 elements (R227). -/
theorem Display.length_frame (d : Display) : d.frame.length = 2048 := by
  rw [Display.frame, (flatMap_rows d.toList).1]; simp

/-- Element 64·y + x of a frame is the pixel in column x and row y (R227). -/
theorem Display.getElem?_frame (d : Display) {x y : Nat} (hx : x < 64) (hy : y < 32) :
    d.frame[64 * y + x]? = some (d.pixel x y) := by
  rw [Display.frame, (flatMap_rows d.toList).2 x y hx (by simpa using hy)]
  simp [Display.pixel, hx, hy]

/-! ### Timers -/

/-- What the floor of a count that is not negative says. -/
theorem toNat_floor {q : Rat} (h : 0 ≤ q) :
    ((q.floor.toNat : Nat) : Rat) = q.floor ∧ (q.floor : Rat) ≤ q ∧ q < (q.floor : Rat) + 1 := by
  have h0 : 0 ≤ q.floor := by rw [Rat.le_floor_iff]; simpa
  refine ⟨?_, Rat.le_floor_iff.mp le_rfl, by exact_mod_cast Rat.lt_floor_add_one q⟩
  have : ((q.floor.toNat : Nat) : Int) = q.floor := by omega
  exact_mod_cast congrArg (Int.cast : Int → Rat) this

/-- The decrements of a tick take their time from the accumulator and leave less than one decrement (R281). -/
theorem timerCount_spec {acc t : Rat} (h : 0 ≤ acc + t) :
    acc + t = (timerCount acc t).2 + (timerCount acc t).1 / 60 ∧
      0 ≤ (timerCount acc t).2 ∧ (timerCount acc t).2 * 60 < 1 := by
  obtain ⟨h1, h2, h3⟩ := toNat_floor (q := (acc + t) * 60) (by linarith)
  simp only [timerCount, Config.timerHz]
  push_cast
  rw [h1]
  exact ⟨by ring, by linarith, by linarith⟩

/-- The timer phase as one update (R281, R282). -/
theorem State.timerPhase_eq (s : State) :
    s.timerPhase = { s with
      accTimer := (timerCount s.accTimer s.elapsed).2
      dt := (s.decrementTimersBy (timerCount s.accTimer s.elapsed).1).dt
      st := (s.decrementTimersBy (timerCount s.accTimer s.elapsed).1).st
      soundOn := s.timerPhase.soundOn, results := s.timerPhase.results, phase := .frame } := by
  have key : ∀ (k : Nat) (q : Rat) (u : State), State.decrementTimersBy { u with accTimer := q } k =
      { u.decrementTimersBy k with accTimer := q } := by
    intro k q u
    induction k generalizing u with
    | zero => rfl
    | succ k ih => rw [State.decrementTimersBy, State.decrementTimersBy]; exact ih u.decrementTimers
  unfold State.timerPhase
  simp only [State.soundCheck_eq]
  rw [key, State.decrementTimersBy_frame]

/-! ### What a step does, phase by phase -/

/-- Between two ticks a step takes the host's next input. -/
theorem step_betweenTicks {s : State} (h : s.betweenTicks) : step s = .next s.takeInput := by
  obtain ⟨h1, h2⟩ := h
  simp only [step, h1, Bool.false_eq_true, if_false]
  split <;> simp_all

/-- In step (b) a step is one turn of the CPU, unless a teardown is due. -/
theorem step_cpu {s : State} {n : Nat} (h1 : s.tornDown = false) (h2 : s.sched = .running) (h3 : s.phase = .cpu n)
    (h4 : s.host.head? ≠ some (.teardownBetweenSteps n)) : step s = cpuPhase n s := by
  simp [step, h1, h2, h3, State.teardownDue, h4]

/-- A teardown that is due between two steps is taken (R299). -/
theorem step_teardownDue {s : State} {n : Nat} (h1 : s.tornDown = false) (h2 : s.sched = .running) (h3 : s.phase = .cpu n)
    (h4 : s.host.head? = some (.teardownBetweenSteps n)) : step s = .next s.takeInput := by
  simp [step, h1, h2, h3, State.teardownDue, h4]

theorem step_timers {s : State} (h1 : s.tornDown = false) (h2 : s.sched = .running) (h3 : s.phase = .timers) :
    step s = .next s.timerPhase := by simp [step, h1, h2, h3]

theorem step_frame {s : State} (h1 : s.tornDown = false) (h2 : s.sched = .running) (h3 : s.phase = .frame) :
    step s = .next s.framePhase := by simp [step, h1, h2, h3]

theorem step_events {s : State} (h1 : s.tornDown = false) (h2 : s.sched = .running) (h3 : s.phase = .events) :
    step s = .next s.eventPhase := by simp [step, h1, h2, h3]

/-! ### Inputs of the host -/

theorem State.takeInput_nil {s : State} (h : s.host = []) : s.takeInput = s := by simp [State.takeInput, h]

theorem State.takeInput_cons {s : State} {i : HostInput} {rest : List HostInput} (h : s.host = i :: rest) :
    s.takeInput = { s with host := rest }.applyInput i := by simp [State.takeInput, h]

/-- A dropped frame leaves every other event and the latest frame (R296). -/
theorem dropFrameAt_keeps (n : Nat) (es : List OutEvent) :
    notificationsOf (dropFrameAt n es) = notificationsOf es ∧
      (framesOf (dropFrameAt n es)).getLast? = (framesOf es).getLast? := by
  induction es generalizing n with
  | nil => cases n <;> exact ⟨rfl, rfl⟩
  | cons e es ih =>
    cases n with
    | zero =>
      rw [dropFrameAt]
      split
      · next h =>
        obtain ⟨h1, h2⟩ := (Bool.and_eq_true _ _).mp h
        obtain ⟨f, hf, hf'⟩ := List.any_eq_true.mp h2
        have hne : framesOf es ≠ [] := List.ne_nil_of_mem (List.mem_filter.mpr ⟨hf, hf'⟩)
        refine ⟨by simp [notificationsOf, h1], ?_⟩
        show _ = (List.filter _ (e :: es)).getLast?
        rw [List.filter_cons_of_pos h1, List.getLast?_cons]
        obtain ⟨g, hg⟩ := Option.ne_none_iff_exists'.mp (mt List.getLast?_eq_none_iff.mp hne)
        rw [show List.filter OutEvent.isFrame es = framesOf es from rfl, hg]; rfl
      · exact ⟨rfl, rfl⟩
    | succ n =>
      obtain ⟨h1, h2⟩ := ih n
      rw [dropFrameAt]
      simp only [notificationsOf, framesOf] at h1 h2 ⊢
      cases he : e.isFrame
      · rw [List.filter_cons_of_pos (by simp [he]), List.filter_cons_of_pos (by simp [he]),
          List.filter_cons_of_neg (by simp [he]), List.filter_cons_of_neg (by simp [he]), h1]
        exact ⟨rfl, h2⟩
      · rw [List.filter_cons_of_neg (by simp [he]), List.filter_cons_of_neg (by simp [he]),
          List.filter_cons_of_pos he, List.filter_cons_of_pos he, List.getLast?_cons, List.getLast?_cons, h2]
        exact ⟨h1, rfl⟩

/-- An event offered in Idle or Halted changes the tick rate only, and that only by `set_speed` (R297, R298). -/
theorem State.offer_idle (s : State) (h : s.sched ≠ .running) :
    (∀ k, s.offer (.keyDown k) = s) ∧ (∀ k, s.offer (.keyUp k) = s) ∧
      ∀ r, s.offer (.setSpeed r) = { s with tickRate := (min (max r 100) 3000).toNat } := by
  unfold State.offer
  split
  · next hs => exact absurd hs h
  all_goals exact ⟨fun _ => rfl, fun _ => rfl, fun _ => rfl⟩

/-- Events offered in Idle and Halted change the tick rate only (R297, R298), and leave it where no speed is set. -/
theorem State.offers_idle (es : List InEvent) (s : State) (h : s.sched ≠ .running) :
    ∃ r, es.foldl State.offer s = { s with tickRate := r } ∧ ((∀ q, InEvent.setSpeed q ∉ es) → r = s.tickRate) := by
  induction es generalizing s with
  | nil => exact ⟨s.tickRate, rfl, fun _ => rfl⟩
  | cons e es ih =>
    obtain ⟨h1, h2, h3⟩ := s.offer_idle h
    rw [List.foldl_cons]
    cases e with
    | keyDown k =>
      obtain ⟨r, hr, hq⟩ := ih s h
      exact ⟨r, by rw [h1, hr], fun hn => hq fun q hm => hn q (List.mem_cons_of_mem _ hm)⟩
    | keyUp k =>
      obtain ⟨r, hr, hq⟩ := ih s h
      exact ⟨r, by rw [h2, hr], fun hn => hq fun q hm => hn q (List.mem_cons_of_mem _ hm)⟩
    | setSpeed q =>
      obtain ⟨r, hr, -⟩ := ih { s with tickRate := (min (max q 100) 3000).toNat } h
      exact ⟨r, by rw [h3, hr], fun hn => absurd (List.mem_cons_self ..) (hn q)⟩

/-! ### Instructions and the tick -/

/-- The rows of a sprite are the bytes at I and after (R225). -/
theorem State.spriteRows_eq (s : State) (n : Nat) :
    s.spriteRows n = (List.range n).map fun r => s.readByte (s.index.toNat + r) := by
  apply List.ext_getElem
  · simp [State.spriteRows]
  · intro j h1 h2
    have hj : j < n := by simpa [State.spriteRows] using h1
    have := Memory.getD_readBytes s.mem s.index.toNat n j hj
    rw [List.getD_eq_getElem _ _ (by simpa using hj)] at this
    simp [State.spriteRows, State.dataBase, this, State.readByte]

/-- Every run of one step more is a step and then a run. -/
theorem run_succ {s t : State} (k : Nat) (h : step s = .next t) :
    Sys2Proof.core.run (k + 1) s = Sys2Proof.core.run k t := by
  have h' : Sys2Proof.core.step s = .next t := h
  simp only [Host.Core.run, h']

end Sys2Proof.Machine
end

