-- ==== Sys2Proof/Tests/Slice0.lean ====
section
/-! SUPPORT. The model's own tests. Words are written out from the encodings of 30_encoding.md R107; expected results are those of
the vectors of 95_test_vectors.md (V, T, L, S) or are computed by hand from the rule named. The last part shows, for every
statement with hypotheses, a concrete input that meets them. -/

namespace Sys2Proof.Tests
open Sys2Proof Sys2Proof.Machine
set_option Elab.async false

/-! ### Well-formedness -/

/-- n is a 4-bit count (R105): 16 rows have no encoding, 15 have one. -/
theorem test_drw_of_16_rows_is_ill_formed :
    (Instr.drw 0 0 16).wellFormed = false ∧ (Instr.drw 0 0 15).wellFormed = true := by decide

/-! ### Decoding (R107) -/

theorem test_decode_loads :
    decodeWord 0b0110101001000010#16 = some (.ldImm 0xA 0x42#8) ∧ decodeWord 0b1000000100110000#16 = some (.ldReg 1 3) ∧
    decodeWord 0b1010111111111111#16 = some (.ldI 0xFFF#12) ∧ decodeWord 0b1111010000101001#16 = some (.ldF 4) ∧
    decodeWord 0b1111010100110011#16 = some (.ldB 5) ∧ decodeWord 0b1111001001010101#16 = some (.storeRegs 2) ∧
    decodeWord 0b1111001101100101#16 = some (.loadRegs 3) := by decide

theorem test_decode_arithmetic :
    decodeWord 0b0111000000000001#16 = some (.addImm 0 1#8) ∧ decodeWord 0b1000000100100001#16 = some (.orReg 1 2) ∧
    decodeWord 0b1000000100100010#16 = some (.andReg 1 2) ∧ decodeWord 0b1000000100100011#16 = some (.xorReg 1 2) ∧
    decodeWord 0b1000000100100100#16 = some (.addReg 1 2) ∧ decodeWord 0b1000000100100101#16 = some (.sub 1 2) ∧
    decodeWord 0b1000001101000110#16 = some (.shr 3 4) ∧ decodeWord 0b1000000100100111#16 = some (.subn 1 2) ∧
    decodeWord 0b1000101000001110#16 = some (.shl 0xA 0) ∧ decodeWord 0b1111001000011110#16 = some (.addI 2) ∧
    decodeWord 0b1100001100001111#16 = some (.rnd 3 0x0F#8) := by decide

theorem test_decode_skips :
    decodeWord 0b0011000101000010#16 = some (.seImm 1 0x42#8) ∧ decodeWord 0b0100000101000010#16 = some (.sneImm 1 0x42#8) ∧
    decodeWord 0b0101000100100000#16 = some (.seReg 1 2) ∧ decodeWord 0b1001000100100000#16 = some (.sneReg 1 2) ∧
    decodeWord 0b1110000010011110#16 = some (.skp 0) ∧ decodeWord 0b1110000010100001#16 = some (.sknp 0) := by decide

theorem test_decode_control_and_display :
    decodeWord 0b0001001000000100#16 = some (.jp 0x204#12) ∧ decodeWord 0b1011001100000000#16 = some (.jpV0 0x300#12) ∧
    decodeWord 0b0010010000000000#16 = some (.call 0x400#12) ∧ decodeWord 0b0000000011101110#16 = some .ret ∧
    decodeWord 0b0000000011100000#16 = some .cls ∧ decodeWord 0b1101000000010101#16 = some (.drw 0 1 5) := by decide

theorem test_decode_timers_and_keys :
    decodeWord 0b1111000100000111#16 = some (.ldVxDt 1) ∧ decodeWord 0b1111001000001010#16 = some (.ldVxK 2) ∧
    decodeWord 0b1111000000010101#16 = some (.ldDtVx 0) ∧ decodeWord 0b1111001000011000#16 = some (.ldStVx 2) := by decide

/-- V93 to V100: words of R108. -/
theorem test_decode_unknown :
    decodeWord 0x0000#16 = none ∧ decodeWord 0x0123#16 = none ∧ decodeWord 0x500F#16 = none ∧ decodeWord 0x8008#16 = none ∧
    decodeWord 0x800F#16 = none ∧ decodeWord 0xE000#16 = none ∧ decodeWord 0xF0FF#16 = none ∧ decodeWord 0x00FF#16 = none := by
  decide

/-- The byte at the lower address is the high byte (R86, R87), and the table numbers the word's bits from its low end. -/
theorem test_decode_bytes :
    decode [0x12#8, 0x34#8, 0x56#8] = .ok (.jp 0x234#12, [0x56#8]) ∧ decodeTableWord 16 0x1234 = some (.jp 0x234#12) := by decide

/-! ### One instruction -/

/-- A word at PC (0x300 unless `f` sets another), everything else as after reset but for what `f` sets. -/
def ready (w : Nat) (f : State → State) : State := (f { State.reset with pc := 0x300 }).withFetchWord 16 w

/-- The state after the step that runs the word; the state of a new session, PC 0, if there is none. -/
def after (w : Nat) (f : State → State) : State :=
  match step (ready w f) with
  | .next t => t
  | .fault _ => State.created
  | .refused _ => State.created

/-- How many pixels are set. -/
def pixels (d : Display) : Nat := d.frame.countP id

/-- V1. -/
theorem test_ldImm : (after 0x6A42 id).getV 0xA = 0x42 ∧ (after 0x6A42 id).pc = 0x302 := by decide
/-- V3. -/
theorem test_ldReg : (after 0x8130 (·.setV 3 0x77)).getV 1 = 0x77 ∧ (after 0x8130 (·.setV 3 0x77)).getV 3 = 0x77 := by decide
/-- V5. -/
theorem test_ldI : (after 0xAFFF (·.setIndex 0x123)).index = 0xFFF ∧ (after 0xAFFF (·.setIndex 0x123)).pc = 0x302 := by decide
/-- V9: the low nibble of 0x1B, B. -/
theorem test_ldF_low_nibble : (after 0xF429 (·.setV 4 0x1B)).index = BitVec.ofNat 16 (fontBase + 55) := rfl
/-- V11: 255 is 2, 5, 5. -/
theorem test_ldB :
    let t := after 0xF533 fun s => (s.setV 5 0xFF).setIndex 0x400
    (t.readByte 0x400, t.readByte 0x401, t.readByte 0x402, t.index, t.pc) = (2, 5, 5, 0x400, 0x302) := by decide
/-- V14: the third byte would lie at 0x1000. -/
theorem test_ldB_out_of_bounds :
    let t := after 0xF533 fun s => (s.setV 5 0x7B).setIndex 0xFFE
    (t.readByte 0xFFE, t.pc, t.fatal, t.phase) = (0, 0x300, some .dataOutOfBounds, .frame) := by decide
/-- V15: V3 is not stored. -/
theorem test_storeRegs :
    let t := after 0xF255 fun s => ((((s.setV 0 1).setV 1 2).setV 2 3).setV 3 4).setIndex 0x400
    (t.readByte 0x400, t.readByte 0x401, t.readByte 0x402, t.readByte 0x403, t.index) = (1, 2, 3, 0, 0x400) := by decide
/-- V18: V4 is not loaded. -/
theorem test_loadRegs :
    let t := after 0xF365 fun s => (s.storeBytes 0x400 [0x10, 0x20, 0x30, 0x40, 0x50]).setIndex 0x400
    (t.getV 0, t.getV 1, t.getV 2, t.getV 3, t.getV 4, t.index) = (0x10, 0x20, 0x30, 0x40, 0, 0x400) := by decide
/-- V21: no carry. -/
theorem test_addImm_wraps :
    let t := after 0x7001 fun s => (s.setV 0 0xFF).setV 0xF 1
    (t.getV 0, t.getV 0xF) = (0, 1) := by decide
/-- V23, V24, V25. -/
theorem test_bitwise :
    (after 0x8121 fun s => (s.setV 1 0x0F).setV 2 0xF0).getV 1 = 0xFF ∧
    (after 0x8122 fun s => (s.setV 1 0x3C).setV 2 0xF0).getV 1 = 0x30 ∧
    (after 0x8123 fun s => (s.setV 1 0xFF).setV 2 0x0F).getV 1 = 0xF0 := by decide
/-- V27. -/
theorem test_addReg_carry :
    let t := after 0x8124 fun s => (s.setV 1 0xFF).setV 2 1
    (t.getV 1, t.getV 0xF) = (0, 1) := by decide
/-- V30: VF as an operand is read before it is written. -/
theorem test_addReg_from_flag :
    let t := after 0x81F4 fun s => (s.setV 1 0x10).setV 0xF 1
    (t.getV 1, t.getV 0xF) = (0x11, 0) := by decide
/-- V32, V33. -/
theorem test_sub :
    let t := after 0x8125 fun s => (s.setV 1 3).setV 2 5
    let u := after 0x8125 fun s => (s.setV 1 5).setV 2 5
    (t.getV 1, t.getV 0xF, u.getV 1, u.getV 0xF) = (0xFE, 0, 0, 1) := by decide
/-- V36. -/
theorem test_subn :
    let t := after 0x8127 fun s => (s.setV 1 5).setV 2 3
    (t.getV 1, t.getV 0xF) = (0xFE, 0) := by decide
/-- V38: V4 is not read. -/
theorem test_shr :
    let t := after 0x8346 fun s => (s.setV 3 5).setV 4 0xFF
    (t.getV 3, t.getV 4, t.getV 0xF) = (2, 0xFF, 1) := by decide
/-- V40, V43: the flag is the last write. -/
theorem test_shifts_of_the_flag :
    (after 0x8FF6 (·.setV 0xF 3)).getV 0xF = 1 ∧ (after 0x8FFE (·.setV 0xF 0x80)).getV 0xF = 1 := by decide
/-- V42. -/
theorem test_shl :
    let t := after 0x8A0E fun s => (s.setV 0xA 0x7F).setV 0xF 1
    (t.getV 0xA, t.getV 0xF) = (0xFE, 0) := by decide
/-- V45, V46: no bound, modulo 2^16, VF kept. -/
theorem test_addI :
    let t := after 0xF01E fun s => (s.setV 0 1).setIndex 0xFFF
    let u := after 0xF01E fun s => (s.setV 0 1).setIndex 0xFFFF
    (t.index, t.getV 0xF, u.index, u.getV 0xF) = (0x1000, 0, 0, 0) := by decide
/-- R165: the draw masked by kk, whatever byte it is. -/
theorem test_rnd : (after 0xC30F id).getV 3 = Config.randomByte 0 &&& 0x0F := rfl
/-- V50, V51. -/
theorem test_seImm : (after 0x3142 (·.setV 1 0x42)).pc = 0x304 ∧ (after 0x3142 (·.setV 1 0x41)).pc = 0x302 := by decide
/-- V52, V53. -/
theorem test_sneImm : (after 0x4142 (·.setV 1 0x42)).pc = 0x302 ∧ (after 0x4142 (·.setV 1 0x41)).pc = 0x304 := by decide
/-- V54, V55. -/
theorem test_seReg :
    (after 0x5120 fun s => (s.setV 1 7).setV 2 7).pc = 0x304 ∧ (after 0x5120 fun s => (s.setV 1 7).setV 2 8).pc = 0x302 := by decide
/-- V57, V58. -/
theorem test_sneReg :
    (after 0x9120 fun s => (s.setV 1 7).setV 2 8).pc = 0x304 ∧ (after 0x9120 fun s => (s.setV 1 7).setV 2 7).pc = 0x302 := by decide
/-- V61, V60: the low nibble of 0x15 is key 5. -/
theorem test_skp :
    (after 0xE09E fun s => (s.setV 0 0x15).setKey 5 true).pc = 0x304 ∧ (after 0xE09E (·.setV 0 5)).pc = 0x302 := by decide
/-- V62, V63. -/
theorem test_sknp :
    (after 0xE0A1 (·.setV 0 5)).pc = 0x304 ∧ (after 0xE0A1 fun s => (s.setV 0 5).setKey 5 true).pc = 0x302 := by decide
/-- V67. -/
theorem test_jp : (after 0x1FFF id).pc = 0xFFF := by decide
/-- V69: no wrap at 12 bits. -/
theorem test_jpV0 : (after 0xBFFF (·.setV 0 0xFF)).pc = 0x10FE := by decide
/-- V71: the 16th entry. -/
theorem test_call :
    let t := after 0x2400 fun s => { s with sp := 15 }
    (t.pc, t.sp, t.stack[15]) = (0x400, 16, 0x302) := by decide
/-- V72. -/
theorem test_call_overflow :
    let t := after 0x2400 fun s => { s with sp := 16 }
    (t.pc, t.sp, t.fatal) = (0x300, 16, some .stackOverflow) := by decide
/-- V73. -/
theorem test_ret :
    let t := after 0x00EE fun s => { s with sp := 1, stack := s.stack.set 0 0x302, pc := 0x400 }
    (t.pc, t.sp, t.stack[0]) = (0x302, 0, 0x302) := by decide
/-- V74. -/
theorem test_ret_underflow : (after 0x00EE id).pc = 0x300 ∧ (after 0x00EE id).fatal = some .stackUnderflow := by decide
/-- V75. -/
theorem test_cls :
    let t := after 0x00E0 fun s => { s with disp := Vector.replicate 32 (Vector.replicate 64 true), displayDirty := false }
    (pixels t.disp, t.displayDirty, t.results) = (0, true, [.displayDirty]) := by decide +kernel
/-- Glyph 0 of R97 at I = 0x400, drawn over `d` at (Vx, Vy). -/
def glyph (d : Display) (vx vy : Byte) : State :=
  after 0xD015 fun s =>
    { ((s.storeBytes 0x400 [0xF0, 0x90, 0x90, 0x90, 0xF0]).setIndex 0x400).setV 0 vx with disp := d }.setV 1 vy
/-- V77, V78: 14 pixels, and none after the second draw, which collides. -/
theorem test_drw_twice :
    let t := glyph Display.cleared 0 0
    let u := glyph t.disp 0 0
    (pixels t.disp, t.getV 0xF, t.disp.pixel 3 4, t.disp.pixel 1 1, pixels u.disp, u.getV 0xF) =
      (14, 0, true, false, 0, 1) := by decide +kernel
/-- V79, V80, V81: clipped at the right edge, clipped at the bottom edge, placed modulo the screen. -/
theorem test_drw_edges :
    (pixels (glyph Display.cleared 0x3E 0).disp, pixels (glyph Display.cleared 0 0x1E).disp,
      pixels (glyph Display.cleared 0x43 0x22).disp, (glyph Display.cleared 0x43 0x22).disp.pixel 3 2) =
      (7, 6, 14, true) := by decide +kernel
/-- V86. -/
theorem test_ldVxDt : (after 0xF107 fun s => { s with dt := 30 }).getV 1 = 30 := by decide
/-- V87. -/
theorem test_ldDtVx : (after 0xF015 (·.setV 0 30)).dt = 30 := by decide
/-- V88. -/
theorem test_ldStVx_on :
    let t := after 0xF218 (·.setV 2 5)
    (t.st, t.soundOn, t.results) = (5, true, [.soundStateChanged true]) := by decide
/-- V89: a reload while the tone is on says nothing. -/
theorem test_ldStVx_reload :
    let t := after 0xF218 fun s => { s.setV 2 5 with st := 3, soundOn := true }
    (t.st, t.soundOn, t.results) = (5, true, []) := by decide
/-- V92. -/
theorem test_ldVxK :
    let t := after 0xF20A id
    (t.waitActive, t.waitReg, t.results, t.pc) = (true, 2, [.enteredKeyWait 2], 0x302) := by decide
/-- V95. -/
theorem test_unknown : (after 0x500F id).pc = 0x302 ∧ (after 0x500F id).results = [.diagnostic 0x300 0x500F] := by decide
/-- V102 and V101: the last legal fetch, and the first address without one. -/
theorem test_fetch_edge :
    (after 0x1200 fun s => { s with pc := 0xFFE }).pc = 0x200 ∧
    step { State.reset with pc := 0xFFF, phase := .cpu 1 } =
      .next { State.reset with pc := 0xFFF, phase := .frame, fatal := some .fetchOutOfBounds } := by
  refine ⟨by decide, rfl⟩

/-! ### Ticks, input, load -/

/-- State.reset is the state that the load of an empty ROM leaves in a new session (L2). -/
theorem reset_is_first_load : State.created.loadRom [] = State.reset := rfl

/-- T5. -/
theorem test_speed_clamp :
    (State.reset.applyEvent (.setSpeed 50)).tickRate = 100 ∧ (State.reset.applyEvent (.setSpeed 99999)).tickRate = 3000 := by decide
/-- T11: a press completes the wait, the release after it clears the key. -/
theorem test_key_wait_completes :
    let s := { State.reset with waitActive := true, waitReg := 2, inq := [.keyDown 0xA, .keyUp 0xA] }.drainInbound
    (s.getV 2, s.waitActive, s.keyPressed 0xA, s.inq) = (0xA, false, false, []) := by decide
/-- T13. -/
theorem test_key_16_is_discarded :
    let s := { State.reset with waitActive := true }.applyEvent (.keyDown 16)
    (s.waitActive, s.keys) = (true, State.reset.keys) := by decide
/-- T4: 60 decrements in one second. -/
theorem test_one_second : (timerCount 0 1).1 = 60 ∧ (timerCount 0 1).2 = 0 := by decide +kernel
/-- T6, last tick: ST reaches 0 and the tone goes off. -/
theorem test_sound_off :
    let s := { State.reset with st := 1, soundOn := true, phase := .timers, elapsed := 1 / 60 }.timerPhase
    (s.st, s.soundOn, s.results, s.phase) = (0, false, [.soundStateChanged false], .frame) := by decide +kernel
/-- T7: frame, sound, halted, in this order. -/
theorem test_halt_order :
    let s := { State.reset with phase := .frame, results := [.soundStateChanged true, .displayDirty], fatal := some .stackUnderflow }
    let t := s.framePhase.eventPhase
    t.outbound.length = 3 ∧ t.outbound.drop 1 = [.sound true, .halted .stackUnderflow] ∧ t.sched = .halted ∧
      t.haltReason = some .stackUnderflow ∧ t.displayDirty = false := by decide +kernel
/-- T12: 3585 bytes are rejected. -/
theorem test_oversized_rom (bs : List Byte) (h : bs.length = 3585) :
    State.reset.loadRom bs = { State.reset with loadReply := some .invalidROM } := by
  rw [State.loadRom, if_pos (by rw [h]; decide)]
/-- R299: between two CPU steps a teardown that is due there ends the session, and one due at a later point lets the step run. -/
theorem test_teardown_between_steps :
    let s := { State.reset with phase := .cpu 2, host := [.teardownBetweenSteps 2] }
    let t := { State.reset with phase := .cpu 2, host := [.teardownBetweenSteps 1] }
    step s = .next ({ s with host := [] }.teardown) ∧
      step t = .next { t with phase := .cpu 1, pc := 0x202, results := [.diagnostic 0x200 0] } := ⟨rfl, rfl⟩
/-- R97: glyph A of the default table. -/
theorem test_default_glyph_A : (defaultFontTable.drop 50).take 5 = [0xF0, 0x90, 0xF0, 0x90, 0x90] := by decide
/-- T15: `set_speed` acts in Idle, keys do not. -/
theorem test_idle :
    (State.created.offer (.setSpeed 200)).tickRate = 200 ∧ (State.created.offer (.keyDown 1)).inq = [] := by decide

/-! ### Witnesses: a concrete input for the hypotheses of every statement that has some -/

/-- A state in step (b) of a tick with `n` CPU steps left, the word `w` at PC 0x300. -/
def running (w n : Nat) : State := { ready w id with phase := .cpu n }

theorem witness_DecodeOfEncode : (Instr.drw 0xF 0xF 15).wellFormed = true ∧ (Instr.ldImm 0 0).wellFormed = true := by decide
theorem witness_EncodeOfDecode : decodeWord 0xFF65#16 = some (.loadRegs 0xF) := by decide
theorem witness_StepRuns :
    let s := running 0x1300 1
    s.tornDown = false ∧ s.sched = .running ∧ s.phase = .cpu (0 + 1) ∧
      s.host.head? ≠ some (.teardownBetweenSteps (0 + 1)) ∧ s.waitActive = false ∧ s.pc.toNat ≤ 0xFFE ∧
      decode [s.readByte s.pc.toNat, s.readByte (s.pc.toNat + 1)] = .ok (.jp 0x300#12, []) := by decide
theorem witness_Fetch :
    let s := { State.reset with pc := 0xFFE }
    let t := { State.reset with pc := 0xFFF, phase := .cpu 1 }
    s.pc.toNat ≤ 0xFFE ∧ 0xFFE < t.pc.toNat ∧ t.tornDown = false ∧ t.sched = .running ∧ t.phase = .cpu (0 + 1) ∧
      t.host.head? ≠ some (.teardownBetweenSteps (0 + 1)) ∧ t.waitActive = false := by decide
theorem witness_UnknownOpcode :
    let s := running 0x00FF 1
    s.tornDown = false ∧ s.sched = .running ∧ s.phase = .cpu (0 + 1) ∧
      s.host.head? ≠ some (.teardownBetweenSteps (0 + 1)) ∧ s.waitActive = false ∧ s.pc.toNat ≤ 0xFFE ∧
      decode [s.readByte s.pc.toNat, s.readByte (s.pc.toNat + 1)] = .error (.unknownOpcode 0x00FF#16) := by decide
/-- With one CPU step left, and with the budget spent. -/
theorem witness_KeyWaitRunsNoInstruction :
    let s := { running 0x1300 1 with waitActive := true }
    let t := running 0x1300 0
    s.tornDown = false ∧ s.sched = .running ∧ s.phase = .cpu 1 ∧ s.host.head? ≠ some (.teardownBetweenSteps 1) ∧ 1 ≠ 0 ∧
      s.waitActive = true ∧
      t.tornDown = false ∧ t.sched = .running ∧ t.phase = .cpu 0 ∧ t.host.head? ≠ some (.teardownBetweenSteps 0) := by decide
/-- A teardown between ticks, one in Idle, and one between two CPU steps. -/
theorem witness_StepFaults :
    let s := { State.reset with host := [.teardown] }
    let t := { State.created with host := [.teardownBetweenSteps 7, .accept] }
    let u := { running 0x1300 0 with host := [.teardownBetweenSteps 0] }
    State.reset.teardown.tornDown = true ∧ State.reset.tornDown = false ∧
      s.betweenTicks ∧ s.host = .teardown :: [] ∧ t.betweenTicks ∧ t.host = .teardownBetweenSteps 7 :: [.accept] ∧
      u.tornDown = false ∧ u.sched = .running ∧ u.phase = .cpu 0 ∧ u.host = .teardownBetweenSteps 0 :: [] :=
  ⟨rfl, rfl, ⟨rfl, .inr rfl⟩, rfl, ⟨rfl, .inl (by decide)⟩, rfl, rfl, rfl, rfl, rfl⟩
theorem witness_BcdStore :
    (State.reset.setIndex 0xFFD).index.toNat + 2 ≤ 0xFFF ∧ 0xFFF < (State.reset.setIndex 0xFFE).index.toNat + 2 := by decide
/-- Of StoreRegisters and LoadRegisters, at both ends of x. -/
theorem witness_RegisterTransfer :
    (State.reset.setIndex 0xFF0).index.toNat + (15 : Reg).val ≤ 0xFFF ∧
    (State.reset.setIndex 0xFFF).index.toNat + (0 : Reg).val ≤ 0xFFF ∧ (15 : Reg) ≤ 15 ∧
    0xFFF < (State.reset.setIndex 0xFF1).index.toNat + (15 : Reg).val ∧
    0xFFF < (State.reset.setIndex 0x1000).index.toNat + (0 : Reg).val := by decide
theorem witness_DataAccess :
    (∃ k, k < dataBytes (.drw 0 0 1) ∧ 0xFFF < (State.reset.setIndex 0x1000).index.toNat + k) ∧
    (∃ k, k < dataBytes (.ldB 0) ∧ 0xFFF < (State.reset.setIndex 0xFFE).index.toNat + k) ∧
    (∃ k, k < dataBytes (.storeRegs 0xF) ∧ 0xFFF < (State.reset.setIndex 0xFF1).index.toNat + k) ∧
    (∃ k, k < dataBytes (.loadRegs 1) ∧ 0xFFF < (State.reset.setIndex 0xFFF).index.toNat + k) :=
  ⟨⟨0, by decide⟩, ⟨2, by decide⟩, ⟨15, by decide⟩, ⟨1, by decide⟩⟩
/-- `F155` stores V0 and V1 over the instruction after itself, which becomes `1300`. -/
theorem witness_StoredCode :
    let s := { ready 0xF155 fun s => (s.setV 0 0x13).setIndex 0x302 with phase := .cpu 2 }
    s.tornDown = false ∧ s.sched = .running ∧ s.phase = .cpu (0 + 2) ∧
      s.host.head? ≠ some (.teardownBetweenSteps (0 + 2)) ∧ s.host.head? ≠ some (.teardownBetweenSteps (0 + 1)) ∧
      s.waitActive = false ∧ s.pc.toNat + 3 ≤ 0xFFF ∧
      decode [s.readByte s.pc.toNat, s.readByte (s.pc.toNat + 1)] = .ok (.storeRegs 1, []) ∧
      s.index.toNat + (1 : Reg).val ≤ 0xFFF ∧ (0 : Reg) ≤ 1 ∧ s.index.toNat + (0 : Reg).val = s.pc.toNat + 2 ∧
      s.index.toNat + (1 : Reg).val = s.pc.toNat + 3 ∧ decode [s.getV 0, s.getV 1] = .ok (.jp 0x300#12, []) := by decide
/-- The sum and the difference are stated for x other than F. -/
theorem witness_FlagIsNotTheDestination : (0 : Reg) ≠ regF ∧ (0xE : Reg) ≠ regF := by decide
theorem witness_RandomByteMasked : (0x00#8 : Byte) = 0 := by decide
theorem witness_KeySkips : (5 : Reg).val = ((State.reset.setV 0 0x15).getV 0).toNat % 16 := by decide
theorem witness_Call :
    ({ State.reset with sp := 15 } : State).sp.val < 16 ∧ ({ State.reset with sp := 16 } : State).sp.val = 16 := by decide
theorem witness_Return :
    ({ State.reset with sp := 16 } : State).sp.val = (15 : Fin 16).val + 1 ∧ State.reset.sp.val = 0 := by decide
theorem witness_ReturnContinues :
    let s := { State.reset with sp := 15 }
    s.sp.val < 16 ∧ (14 : Fin 16).val < s.sp.val := by decide
/-- Both clauses, at the corner of the screen: the pixel under the sprite's first bit, and one that the sprite does not reach. -/
theorem witness_DrawXors :
    let rows : List Byte := [0x80]
    63 < 64 ∧ 31 < 32 ∧ 0 < rows.length ∧ 0 < 8 ∧ 63 + 0 < 64 ∧ 31 + 0 < 32 ∧
      ¬(63 ≤ 62 ∧ 62 < 63 + 8 ∧ 31 ≤ 31 ∧ 31 < 31 + rows.length) := by decide
theorem witness_DrawSprite :
    (0 = 0 ∨ (State.reset.setIndex 0xFFFF).index.toNat + 0 ≤ 0x1000) ∧
    (15 = 0 ∨ (State.reset.setIndex 0xFF1).index.toNat + 15 ≤ 0x1000) ∧ (0 : Reg) ≠ regF ∧ (1 : Reg) ≠ regF := by decide
theorem witness_FatalInstruction :
    ∃ t, State.reset.fatal = none ∧ exec .ret State.reset = .next t ∧ t.fatal = some .stackUnderflow :=
  ⟨_, rfl, rfl, rfl⟩
theorem witness_OtherInstructions :
    ∃ t, setsPc .cls = false ∧ State.reset.fatal = none ∧ exec .cls State.reset = .next t := ⟨_, rfl, rfl, rfl⟩
/-- Of the five statements about every instruction that answers a next state. -/
theorem witness_ExecNext : ∃ t, exec (.storeRegs 0) (State.reset.setIndex 0x400) = .next t := ⟨_, rfl⟩
theorem witness_KeyEvents :
    (0 : Int) = (0 : Reg).val ∧ (15 : Int) = (15 : Reg).val ∧ State.reset.waitActive = false ∧
    ({ State.reset with waitActive := true } : State).waitActive = true ∧ ((-1 : Int) < 0 ∨ (15 : Int) < -1) ∧
    ((16 : Int) < 0 ∨ (15 : Int) < 16) := by decide
/-- A tick of no wall time, of a state that waits or not, with an event queued. -/
theorem witness_TickStarts (wait : Bool) :
    let s := { State.reset with host := [.elapse 0 [.keyDown 4]], inq := [.keyUp 3], waitActive := wait }
    let u := s.inq.foldl State.applyEvent { s with inq := [], host := [] }
    s.tornDown = false ∧ s.sched = .running ∧ s.phase = .boundary ∧ s.host = .elapse 0 [.keyDown 4] :: [] ∧ u.waitActive = wait ∧
      Rat.floor ((u.accCpu + 0) * u.tickRate) ≤ maxStepsPerTick := by
  refine ⟨rfl, rfl, rfl, rfl, by cases wait <;> rfl, ?_⟩
  show Rat.floor (((0 : Rat) + 0) * (initialTickRate : Rat)) ≤ _
  rw [add_zero, zero_mul, show Rat.floor 0 = 0 from rfl]
  exact Int.natCast_nonneg _
/-- A tick of so much wall time that the cap cuts it. -/
theorem witness_TickStarts_capped :
    let s := { State.reset with host := [.elapse maxStepsPerTick []], tickRate := 100 }
    let u := s.inq.foldl State.applyEvent { s with inq := [], host := [] }
    s.tornDown = false ∧ s.sched = .running ∧ s.phase = .boundary ∧ s.host = .elapse maxStepsPerTick [] :: [] ∧
      u.waitActive = false ∧ (maxStepsPerTick : Int) < Rat.floor ((u.accCpu + maxStepsPerTick) * u.tickRate) := by
  refine ⟨rfl, rfl, rfl, rfl, rfl, ?_⟩
  show _ < Rat.floor (((0 : Rat) + maxStepsPerTick) * ((100 : Nat) : Rat))
  have h : 0 < maxStepsPerTick := Nat.succ_pos _
  have e : ((0 : Rat) + maxStepsPerTick) * ((100 : Nat) : Rat) = ((maxStepsPerTick * 100 : Int) : Rat) := by push_cast; ring
  rw [e, Rat.floor_intCast]
  omega
/-- Where the two clauses meet: a budget of exactly the cap, and of one step more. -/
theorem witness_TickStarts_at_the_cap (k : Nat) :
    let time : Rat := ((maxStepsPerTick + k : Nat) : Rat) / 100
    let s := { State.reset with host := [.elapse time []], tickRate := 100 }
    let u := s.inq.foldl State.applyEvent { s with inq := [], host := [] }
    s.tornDown = false ∧ s.sched = .running ∧ s.phase = .boundary ∧ s.host = .elapse time [] :: [] ∧ u.waitActive = false ∧
      Rat.floor ((u.accCpu + time) * u.tickRate) = maxStepsPerTick + k ∧
      (k = 0 → Rat.floor ((u.accCpu + time) * u.tickRate) ≤ maxStepsPerTick) ∧
      (k = 1 → (maxStepsPerTick : Int) < Rat.floor ((u.accCpu + time) * u.tickRate)) := by
  have e : Rat.floor (((0 : Rat) + ((maxStepsPerTick + k : Nat) : Rat) / 100) * ((100 : Nat) : Rat)) = maxStepsPerTick + k := by
    rw [show ((0 : Rat) + ((maxStepsPerTick + k : Nat) : Rat) / 100) * ((100 : Nat) : Rat) =
      ((maxStepsPerTick + k : Int) : Rat) by push_cast; ring, Rat.floor_intCast]
  refine ⟨rfl, rfl, rfl, rfl, rfl, e, fun hk => ?_, fun hk => ?_⟩
  · exact e.le.trans (by omega)
  · exact lt_of_lt_of_eq (by omega) e.symm
theorem witness_TickStarts_offer :
    let s := { State.reset with host := [.offer (.keyDown 1)] }
    s.tornDown = false ∧ s.sched = .running ∧ s.phase = .boundary ∧ s.host = .offer (.keyDown 1) :: [] ∧
      State.reset.phase = .boundary ∧ State.reset.host = [] := by decide
theorem witness_TimerPhase :
    let s := { State.reset with phase := .timers, elapsed := 1 / 60 }
    s.tornDown = false ∧ s.sched = .running ∧ s.phase = .timers ∧ 0 ≤ s.accTimer + s.elapsed := by decide +kernel
theorem witness_Decrements : ∀ t ∈ ([1 / 3, 2 / 3] : List Rat), 0 ≤ t := by decide +kernel
theorem witness_OneSecond :
    (∀ t ∈ ([1 / 7] : List Rat), 0 ≤ t) ∧ (∀ t ∈ ([1 / 3, 2 / 3] : List Rat), 0 ≤ t) ∧ ([1 / 3, 2 / 3] : List Rat).sum = 1 := by
  decide +kernel
theorem witness_TickEnds :
    let s := { State.reset with phase := .frame, fatal := some .stackOverflow }
    let t := { State.reset with phase := .frame }
    s.tornDown = false ∧ s.sched = .running ∧ s.phase = .frame ∧ s.fatal = some .stackOverflow ∧
      t.tornDown = false ∧ t.sched = .running ∧ t.phase = .frame ∧ t.fatal = none := by decide
theorem witness_TickEnds_channel :
    let s := { State.reset with host := [.accept], outbound := [.sound true] }
    let t := { State.created with host := [.dropFrame 0, .accept], outbound := [.frame [], .needKey 1, .frame [true]] }
    s.betweenTicks ∧ s.host = .accept :: [] ∧ t.betweenTicks ∧ t.host = .dropFrame 0 :: [.accept] :=
  ⟨⟨rfl, .inr rfl⟩, rfl, ⟨rfl, .inl (by decide)⟩, rfl⟩
theorem witness_EveryTickEnds :
    let s := running 0x1300 3
    s.tornDown = false ∧ s.sched = .running ∧ s.phase = .cpu 3 := by decide
theorem witness_IdleAndHalted :
    let s := { State.created with host := [.elapse 1 [.keyDown 4]] }
    let t := { State.created with sched := .halted, haltReason := some .stackOverflow, host := [.offer (.setSpeed 50)] }
    State.created.host = [] ∧ s.tornDown = false ∧ s.sched ≠ .running ∧ s.host = .elapse 1 [.keyDown 4] :: [] ∧
      t.tornDown = false ∧ t.sched ≠ .running ∧ t.host = .offer (.setSpeed 50) :: [] ∧
      (∀ r, InEvent.setSpeed r ∉ [InEvent.keyDown 4]) := by
  refine ⟨rfl, rfl, by decide, rfl, rfl, by decide, rfl, fun r => by simp⟩
theorem witness_IdleAndHalted_keys :
    let s := { State.created with host := [.offer (.keyDown 1)] }
    let t := { State.created with host := [.offer (.keyUp 1)] }
    s.tornDown = false ∧ s.sched ≠ .running ∧ s.host = .offer (.keyDown 1) :: [] ∧
      t.tornDown = false ∧ t.sched ≠ .running ∧ t.host = .offer (.keyUp 1) :: [] := by decide
/-- The last of two speeds that come with the wall time. -/
theorem witness_IdleAndHalted_speed :
    let during : List InEvent := [.setSpeed 200, .keyUp 1, .setSpeed 50, .keyDown 2]
    let s := { State.created with host := [.elapse 1 during] }
    s.tornDown = false ∧ s.sched ≠ .running ∧ s.host = .elapse 1 during :: [] ∧
      during = [.setSpeed 200, .keyUp 1] ++ .setSpeed 50 :: [.keyDown 2] ∧ (∀ q, InEvent.setSpeed q ∉ [InEvent.keyDown 2]) :=
  ⟨rfl, by decide, rfl, rfl, fun _ => by simp⟩
theorem witness_Halted :
    let s := { State.reset with sched := .halted, haltReason := some .stackOverflow, host := [.offer (.keyDown 1), .accept] }
    s.tornDown = false ∧ s.sched = .halted ∧ (∀ bytes, HostInput.load bytes ∉ s.host) ∧ HostInput.teardown ∉ s.host ∧
      ∀ k, HostInput.teardownBetweenSteps k ∉ s.host :=
  ⟨rfl, rfl, fun _ => by simp, by simp, fun _ => by simp⟩
theorem witness_Load :
    let bytes : List Byte := [0x00, 0xE0]
    bytes.length ≤ 3584 ∧ 1 < bytes.length ∧ 79 < 80 ∧ (0x1FF < 0x200 ∨ 0x200 + bytes.length ≤ 0x1FF) ∧
      (0x1FF < 0x1B0 ∨ fontBase + 80 ≤ 0x200) := by
  refine ⟨by decide, by decide, by decide, by decide, .inr fontBase_le⟩
/-- A load while Running and one in Halted. -/
theorem witness_Load_step :
    let s := { State.reset with host := [.load [0x00, 0xE0]] }
    let t := { State.reset with sched := .halted, haltReason := some .stackOverflow, host := [.load [], .accept] }
    s.betweenTicks ∧ s.host = .load [0x00, 0xE0] :: [] ∧ t.betweenTicks ∧ t.host = .load [] :: [.accept] :=
  ⟨⟨rfl, .inr rfl⟩, rfl, ⟨rfl, .inl (by decide)⟩, rfl⟩
theorem witness_Oversized :
    let s := { State.created with host := [.load (List.replicate 3585 0)] }
    3584 < (List.replicate 3585 (0 : Byte)).length ∧ (List.replicate 3584 (0x12 : Byte)).length = 3584 ∧ 0x200 ≤ 0xFFF ∧
      s.betweenTicks ∧ s.host = .load (List.replicate 3585 0) :: [] := by
  refine ⟨by rw [List.length_replicate]; decide, List.length_replicate .., by decide, ⟨rfl, .inl (by decide)⟩, rfl⟩

/-- A state in the middle of a tick that meets the invariant, and its next state. -/
theorem witness_Invariant : ∃ t, (running 0x1300 1).Inv ∧ step (running 0x1300 1) = .next t := by
  have hr : Config.minTickRate ≤ initialTickRate ∧ initialTickRate ≤ Config.maxTickRate := by
    have := Config.initialTickRateAbove100.isLt
    unfold initialTickRate Config.minTickRate Config.maxTickRate; omega
  have hm : (running 0x1300 1).mem.wf = true := Memory.wf_writeBytes 0x300 [0x13, 0x00] rfl (by decide)
  refine ⟨_, ⟨hm, hr, by decide +kernel, by decide +kernel, by decide +kernel, fun _ _ h => (by cases h), rfl, by decide, by decide,
    fun _ => rfl, by decide, fun h => absurd rfl h, fun h => (by cases h), fun n hn => ?_⟩, rfl⟩
  cases hn
  exact Nat.succ_le_succ (Nat.zero_le _)

end Sys2Proof.Tests
end

section
/-! PROOFS. The state and what writes it (spec 10_state.md): what an instruction can do, the frames that follow from it, and the
invariant of the block. -/

namespace Sys2Proof.Machine

/-! ### What an instruction can do -/

/-- The state in which `2nnn` jumps: the return address pushed on a stack with a free entry (R203). -/
def State.pushed (s : State) (h : s.sp.val < 16) : State :=
  { s with stack := s.stack.set s.sp.val s.returnAddress h, sp := ⟨s.sp.val + 1, by omega⟩ }

/-- The return address on top of a stack that is not empty (R204). -/
def State.top (s : State) (h : 0 < s.sp.val) : Word := s.stack[s.sp.val - 1]'(by have := s.sp.isLt; omega)

/-- The state in which `00EE` jumps: one stack entry less in use (R41, R204). -/
def State.popped (s : State) : State := { s with sp := ⟨s.sp.val - 1, by have := s.sp.isLt; omega⟩ }

/-- The state after an instruction, by what it writes: a fatal reason (R260), PC alone, the stack, registers, I, memory, the
display, a timer, or the key-wait latch. Every form but the first four ends with PC + 2 (R37). -/
inductive Effect (i : Instr) (s : State) : State → Prop
  | fatal (r : HaltReason) : Effect i s (s.fatalled r)
  | jump (a : Word) (hi : setsPc i = true) (ha : a.toNat ≤ 0x10FE ∨ a = s.pc + 4 ∨ a = s.pc + 2) : Effect i s (s.setPc a)
  | call (nnn : BitVec 12) (hi : i = .call nnn) (h : s.sp.val < 16) :
      Effect i s ((s.pushed h).setPc (zextAddr nnn))
  | ret (hi : i = .ret) (h : 0 < s.sp.val) : Effect i s (s.popped.setPc (s.top h))
  | regs (v : Vector Byte 16) (d : Nat) (hi : setsPc i = false) (hv : SameVExcept (writesV i) s { s with v := v }) :
      Effect i s { s with v := v, draws := d }.advance
  | index (a : Word) (hi : (∃ nnn, i = .ldI nnn) ∨ (∃ x, i = .addI x) ∨ ∃ x, i = .ldF x) :
      Effect i s (s.setIndex a).advance
  | store (bs : List Byte) (hi : setsPc i = false) (hn : bs.length = storedBytes i) (h : s.dataBase + bs.length ≤ 0x1000) :
      Effect i s (s.storeBytes s.dataBase bs).advance
  | display (v : Vector Byte 16) (d : Display) (hi : i = .cls ∨ ∃ x y n, i = .drw x y n)
      (hv : SameVExcept (writesV i) s { s with v := v }) : Effect i s ({ s with v := v }.showDisplay d).advance
  | delay (x : Reg) (hi : i = .ldDtVx x) : Effect i s { s with dt := s.getV x }.advance
  | sound (x : Reg) (hi : i = .ldStVx x) : Effect i s ({ s with st := s.getV x }.soundCheck).advance
  | keyWait (x : Reg) (hi : i = .ldVxK x) :
      Effect i s ({ s with waitActive := true, waitReg := x }.emit (.enteredKeyWait x)).advance

/-- A data access that answers a next state is fatal, or in bounds and what it does (R84). -/
theorem State.withData_next {s t : State} {n : Nat} {f : State → Result} (h : s.withData n f = .next t) :
    t = s.fatalled .dataOutOfBounds ∨ ((n = 0 ∨ s.dataBase + n ≤ 0x1000) ∧ f s = .next t) := by
  rcases s.withData_cases n f with ⟨hb, he⟩ | ⟨-, -, he⟩
  · exact .inr ⟨hb, he ▸ h⟩
  · exact .inl (Host.Outcome.next.inj (he ▸ h)).symm

/-- A data access has the effect of what it does in bounds, or is fatal. -/
theorem Effect.of_withData {i : Instr} {s t : State} {n : Nat} {f : State → State}
    (h : s.withData n (fun s => (f s).done) = .next t)
    (hf : n = 0 ∨ s.dataBase + n ≤ 0x1000 → Effect i s (f s).advance) : Effect i s t := by
  rcases State.withData_next h with rfl | ⟨hb, he⟩
  · exact .fatal _
  · obtain rfl := Host.Outcome.next.inj he
    exact hf hb

theorem Effect.of_skipIf {i : Instr} (s : State) (c : Bool) (hi : setsPc i = true) : Effect i s (s.skipIf c) := by
  rw [State.skipIf_eq]
  exact .jump _ hi (by cases c <;> simp)

theorem sameV_setV (s : State) (x : Reg) (b : Byte) : SameVExcept (· = x) s (s.setV x b) :=
  fun _ h => State.getV_setV_ne s b h

theorem sameV_setVFlag (s : State) (x : Reg) (b f : Byte) :
    SameVExcept (fun r => r = x ∨ r = regF) s (s.setVFlag x b f) :=
  fun _ h => State.getV_setVFlag_ne s b f (h ∘ .inl) (h ∘ .inr)

theorem sameV_loadFirstRegs (s : State) (x : Reg) : SameVExcept (· ≤ x) s (s.loadFirstRegs x) :=
  fun r h => by rw [State.getV_loadFirstRegs, if_neg h]

theorem toNat_zextAddr (nnn : BitVec 12) : (zextAddr nnn).toNat = nnn.toNat := by
  simp only [zextAddr, BitVec.toNat_setWidth]; omega

/-- The farthest target of `Bnnn` is 0xFFF + 0xFF (R39, R202). -/
theorem State.jumpV0Target_le (s : State) (nnn : BitVec 12) : (s.jumpV0Target nnn).toNat ≤ 0x10FE := by
  simp only [State.jumpV0Target, zextAddr, BitVec.toNat_add, BitVec.toNat_setWidth]; omega

section
variable {s : State}

theorem exec_call_free (nnn : BitVec 12) (h : s.sp.val < 16) :
    exec (.call nnn) s = .next ((s.pushed h).setPc (zextAddr nnn)) := by
  rw [exec, execCall, State.push_free _ _ h]; rfl

theorem exec_call_full (nnn : BitVec 12) (h : s.sp.val = 16) : exec (.call nnn) s = .next (s.fatalled .stackOverflow) := by
  rw [exec, execCall, State.push_full _ _ h]; rfl

theorem exec_ret_some (h : 0 < s.sp.val) : exec .ret s = .next (s.popped.setPc (s.top h)) := by
  rw [exec, execRet, State.pop_some _ h]; rfl

theorem exec_ret_empty (h : s.sp.val = 0) : exec .ret s = .next (s.fatalled .stackUnderflow) := by
  rw [exec, execRet, State.pop_empty _ h]; rfl

end

/-- Every instruction has one of the effects. -/
theorem exec_effect {i : Instr} {s t : State} (h : exec i s = .next t) : Effect i s t := by
  cases i
  case call nnn =>
    by_cases hs : s.sp.val < 16
    · obtain rfl := Host.Outcome.next.inj ((exec_call_free nnn hs).symm.trans h)
      exact .call nnn rfl hs
    · obtain rfl := Host.Outcome.next.inj ((exec_call_full nnn (by omega)).symm.trans h)
      exact .fatal _
  case ret =>
    by_cases hs : 0 < s.sp.val
    · obtain rfl := Host.Outcome.next.inj ((exec_ret_some hs).symm.trans h)
      exact .ret rfl hs
    · obtain rfl := Host.Outcome.next.inj ((exec_ret_empty (by omega)).symm.trans h)
      exact .fatal _
  case drw x y n =>
    rw [exec, execDrw] at h
    exact .of_withData h fun _ => .display _ _ (.inr ⟨x, y, n, rfl⟩) (sameV_setV s _ _)
  case ldB x =>
    rw [exec, execLdB] at h
    exact .of_withData h fun hb => .store _ rfl (length_bcdDigits _) (hb.resolve_left nofun)
  case storeRegs x =>
    rw [exec, execStoreRegs] at h
    refine .of_withData h fun hb => .store _ rfl (s.length_firstRegs x) ?_
    rw [s.length_firstRegs x]
    exact hb.resolve_left (Nat.succ_ne_zero _)
  case loadRegs x =>
    rw [exec, execLoadRegs] at h
    exact .of_withData h fun _ => .regs _ s.draws rfl (sameV_loadFirstRegs s x)
  all_goals obtain rfl := Host.Outcome.next.inj h
  case cls => exact .display s.v _ (.inl rfl) fun _ _ => rfl
  case jp nnn => exact .jump _ rfl (.inl (by rw [toNat_zextAddr]; omega))
  case jpV0 nnn => exact .jump _ rfl (.inl (s.jumpV0Target_le nnn))
  case ldI => exact .index _ (.inl ⟨_, rfl⟩)
  case addI => exact .index _ (.inr (.inl ⟨_, rfl⟩))
  case ldF => exact .index _ (.inr (.inr ⟨_, rfl⟩))
  case ldDtVx x => exact .delay x rfl
  case ldStVx x => exact .sound x rfl
  case ldVxK x => exact .keyWait x rfl
  case rnd => exact .regs _ (s.draws + 1) rfl (sameV_setV s _ _)
  case ldImm | addImm | ldReg | orReg | andReg | xorReg | ldVxDt => exact .regs _ s.draws rfl (sameV_setV s _ _)
  case addReg | sub | shr | subn | shl => exact .regs _ s.draws rfl (sameV_setVFlag s _ _ _)
  case seImm | sneImm | seReg | sneReg | skp | sknp => exact .of_skipIf s _ rfl

/-! ### What every instruction keeps -/

/-- Settles O40: of the effects, only a fatal one, a jump, a call and a return do not end with PC + 2. -/
theorem otherInstructionsAdvancePcByTwo : Obligations.OtherInstructionsAdvancePcByTwo := by
  intro i s t hi hf h
  cases exec_effect h with
  | fatal r => exact .inr ⟨nofun, rfl⟩
  | jump _ hj => exact absurd (hi.symm.trans hj) nofun
  | call _ hj => subst hj; cases hi
  | ret hj => subst hj; cases hi
  | sound =>
    rw [State.soundCheck_eq]
    exact .inl ⟨hf, rfl⟩
  | regs | index | store | display | delay | keyWait => exact .inl ⟨hf, rfl⟩

/-- Settles O41: only two effects write general registers, and each says which. -/
theorem registersAreWrittenOnlyAsListed : Obligations.RegistersAreWrittenOnlyAsListed := by
  intro i s t h
  cases exec_effect h with
  | regs _ _ _ hv => exact hv
  | display _ _ _ hv => exact hv
  | sound => rw [State.soundCheck_eq]; exact fun _ _ => rfl
  | fatal | jump | call | ret | index | store | delay | keyWait => exact fun _ _ => rfl

/-- Settles O43: each effect writes what its instructions are listed for. -/
theorem otherStateIsWrittenOnlyAsListed : Obligations.OtherStateIsWrittenOnlyAsListed := by
  intro i s t h
  cases exec_effect h with
  | fatal | jump | regs | store => simp [State.fatalled]
  | call nnn hi => subst hi; simp [State.pushed]
  | ret hi => subst hi; simp [State.popped]
  | index a hi => obtain ⟨_, rfl⟩ | ⟨_, rfl⟩ | ⟨_, rfl⟩ := hi <;> simp
  | display v d hi => obtain rfl | ⟨_, _, _, rfl⟩ := hi <;> simp [State.showDisplay]
  | delay x hi => subst hi; simp
  | sound x hi => subst hi; simp [State.soundCheck_eq]
  | keyWait x hi => subst hi; simp

/-! ### Sound events -/

/-- SoundCheck reports the latch's new value exactly when it flips (R243). -/
theorem State.soundsOf_soundCheck (s : State) :
    soundsOf s.soundCheck.results =
      soundsOf s.results ++ if s.soundCheck.soundOn = s.soundOn then [] else [s.soundCheck.soundOn] := by
  rw [State.soundCheck_eq, soundsOf_append]
  split <;> simp_all [soundsOf]

/-- Settles O45: only SoundCheck changes the latch, for `Fx18` and for the timer phase. -/
theorem soundEventsFollowTheLatch : Obligations.SoundEventsFollowTheLatch := by
  constructor
  · intro i s t h
    cases exec_effect h with
    | sound x => exact State.soundsOf_soundCheck { s with st := s.getV x }
    | display | keyWait => simp [State.showDisplay, soundsOf]
    | fatal | jump | call | ret | regs | index | store | delay =>
      simp [State.fatalled, State.pushed, State.popped]
  · intro s
    have key := State.soundsOf_soundCheck
      (State.decrementTimersBy { s with accTimer := (timerCount s.accTimer s.elapsed).2 } (timerCount s.accTimer s.elapsed).1)
    rw [State.decrementTimersBy_frame] at key
    rw [State.timerPhase, State.decrementTimersBy_frame]
    exact key

/-! ### The serializer and the instructions -/

/-- The state with the tick rate, the accumulators, the wall time, the queue, the channels and the host of another state. -/
def State.withSerializerOf (s u : State) : State :=
  { s with
    tickRate := u.tickRate, accCpu := u.accCpu, accTimer := u.accTimer, elapsed := u.elapsed, inq := u.inq
    outbound := u.outbound, diagnostics := u.diagnostics, host := u.host }

section
variable (s u : State)

theorem State.skipIf_withSerializerOf (c : Bool) :
    (s.withSerializerOf u).skipIf c = (s.skipIf c).withSerializerOf u := by
  cases c <;> rfl

theorem State.soundCheck_withSerializerOf : (s.withSerializerOf u).soundCheck = s.soundCheck.withSerializerOf u := by
  rw [State.soundCheck_eq, State.soundCheck_eq]; rfl

/-- The bounds check of a data access does not read the serializer (R84). -/
theorem State.withData_withSerializerOf {s t : State} {n : Nat} {f : State → State}
    (h : s.withData n (fun s => (f s).done) = .next t)
    (hf : f (s.withSerializerOf u) = (f s).withSerializerOf u) :
    (s.withSerializerOf u).withData n (fun s => (f s).done) = .next (t.withSerializerOf u) := by
  rcases s.withData_cases n fun s => (f s).done with ⟨hb, he⟩ | ⟨hn, hb, he⟩
  · obtain rfl := Host.Outcome.next.inj (he.symm.trans h)
    exact (State.withData_in (s := s.withSerializerOf u) _ hb).trans (congrArg State.done hf)
  · obtain rfl := Host.Outcome.next.inj (he.symm.trans h)
    exact State.withData_out (s := s.withSerializerOf u) _ hn hb

end

/-- An instruction neither reads nor writes the serializer (R50, R52, R53). -/
theorem exec_withSerializerOf {i : Instr} {s t : State} (u : State) (h : exec i s = .next t) :
    exec i (s.withSerializerOf u) = .next (t.withSerializerOf u) := by
  cases i
  case call nnn =>
    by_cases hs : s.sp.val < 16
    · obtain rfl := Host.Outcome.next.inj ((exec_call_free nnn hs).symm.trans h)
      exact exec_call_free (s := s.withSerializerOf u) nnn hs
    · have hs : s.sp.val = 16 := by omega
      obtain rfl := Host.Outcome.next.inj ((exec_call_full nnn hs).symm.trans h)
      exact exec_call_full (s := s.withSerializerOf u) nnn hs
  case ret =>
    by_cases hs : 0 < s.sp.val
    · obtain rfl := Host.Outcome.next.inj ((exec_ret_some hs).symm.trans h)
      exact exec_ret_some (s := s.withSerializerOf u) hs
    · have hs : s.sp.val = 0 := by omega
      obtain rfl := Host.Outcome.next.inj ((exec_ret_empty hs).symm.trans h)
      exact exec_ret_empty (s := s.withSerializerOf u) hs
  case drw | ldB | storeRegs | loadRegs =>
    simp only [exec, execDrw, execLdB, execStoreRegs, execLoadRegs] at h ⊢
    exact State.withData_withSerializerOf u h rfl
  all_goals obtain rfl := Host.Outcome.next.inj h
  case seImm | sneImm | seReg | sneReg | skp | sknp => exact congrArg _ (State.skipIf_withSerializerOf s u _)
  case ldStVx x => exact congrArg (fun r : State => r.done) (State.soundCheck_withSerializerOf { s with st := s.getV x } u)
  all_goals rfl

/-- Settles O44: an instruction commutes with taking over the serializer of another state. -/
theorem instructionsDoNotReadTheSerializer : Obligations.InstructionsDoNotReadTheSerializer := by
  intro i s t rate a b e q o d h hexec
  exact exec_withSerializerOf
    { s with tickRate := rate, accCpu := a, accTimer := b, elapsed := e, inq := q, outbound := o, diagnostics := d,
             host := h } hexec

/-! ### The invariant at reset -/

theorem initialTickRate_range : Config.minTickRate ≤ initialTickRate ∧ initialTickRate ≤ Config.maxTickRate := by
  have := Config.initialTickRateAbove100.isLt
  unfold initialTickRate Config.minTickRate Config.maxTickRate
  omega

theorem State.created_inv : State.created.Inv where
  memWf := Memory.wf_image 0 _ (by rw [List.length_replicate]; decide)
  rate := initialTickRate_range
  accCpu := le_rfl
  accTimer := ⟨le_rfl, by simp [State.created]⟩
  elapsed := le_rfl
  hostTime := nofun
  sound := rfl
  pcBound := by decide
  stackBound := by decide
  tick := fun h => absurd rfl h
  halt := by decide
  fatalPhase := fun h => absurd rfl h
  noResults := fun _ => rfl
  budgetCap := nofun

/-- A load keeps the invariant: of the old state it keeps the tick rate and what the host will do (R330). -/
theorem State.Inv.loadReset {s : State} (hs : s.Inv) {bytes : List Byte} (h : bytes.length ≤ Config.maxRom) :
    (s.loadReset bytes).Inv :=
  { State.created_inv with
    memWf := Memory.wf_image _ _ (Nat.add_le_add_left h _)
    rate := hs.rate
    hostTime := hs.hostTime
    pcBound := show (0x200#16).toNat ≤ 0x10FE by decide
    tick := fun h => absurd rfl h
    halt := by simp [State.loadReset] }

/-- Settles O59: the reset state is the load of an empty ROM into a new session. -/
theorem invariantHoldsAtReset : Obligations.InvariantHoldsAtReset :=
  ⟨State.created_inv.loadReset (bytes := []) (Nat.zero_le _), State.created_inv⟩

/-! ### Updates that keep the invariant -/

section
variable {s : State}

theorem State.Inv.setPc (hs : s.Inv) {a : Word} (h : a.toNat ≤ 0x10FE) : (s.setPc a).Inv := { hs with pcBound := h }

theorem State.Inv.advance (hs : s.Inv) (h : s.pc.toNat ≤ 0xFFE) : s.advance.Inv :=
  hs.setPc (by rw [BitVec.toNat_add]; simp; omega)

theorem State.Inv.emit (hs : s.Inv) (hp : s.phase ≠ .boundary) (e : StepResult) : (s.emit e).Inv :=
  { hs with noResults := fun h => absurd h hp }

theorem State.Inv.storeBytes (hs : s.Inv) {a : Nat} {bs : List Byte} (h : a + bs.length ≤ 0x1000) :
    (s.storeBytes a bs).Inv :=
  { hs with memWf := Memory.wf_writeBytes a bs hs.memWf h }

/-- Timer values may be anything if SoundCheck follows (R243, R282). -/
theorem State.Inv.soundCheck (hs : s.Inv) (hp : s.phase ≠ .boundary) (dt st : Byte) :
    ({ s with dt := dt, st := st }.soundCheck).Inv := by
  rw [State.soundCheck_eq]
  exact { hs with sound := rfl, noResults := fun h => absurd h hp }

/-- A tick goes on to another of its phases. -/
theorem State.Inv.enterPhase (hs : s.Inv) (hr : s.sched = .running) (p : Phase) (hb : p ≠ .boundary)
    (hf : s.fatal ≠ none → p = .frame ∨ p = .events) (hc : ∀ n, p = .cpu n → n ≤ maxStepsPerTick) :
    { s with phase := p }.Inv :=
  { hs with tick := fun _ => hr, fatalPhase := hf, noResults := fun h => absurd h hb, budgetCap := hc }

theorem State.Inv.fatalled (hs : s.Inv) (hr : s.sched = .running) (r : HaltReason) : (s.fatalled r).Inv :=
  { hs with tick := fun _ => hr, fatalPhase := fun _ => .inl rfl, noResults := nofun, budgetCap := nofun }

/-- In step (b) the tick has no fatal reason (R290, R295). -/
theorem State.Inv.fatal_none (hs : s.Inv) (h : s.phase ≠ .frame) (h' : s.phase ≠ .events) : s.fatal = none :=
  by_contra fun hf => (hs.fatalPhase hf).elim h h'

end

/-! ### CPU steps -/

/-- A pushed return address is at most 0xFFE + 2 (R86, R203). -/
theorem State.Inv.pushed {s : State} (hs : s.Inv) (hpc : s.pc.toNat ≤ 0xFFE) (h : s.sp.val < 16) : (s.pushed h).Inv :=
  { hs with
    stackBound := fun j => by
      show ((s.stack.set s.sp.val s.returnAddress h)[j.val]).toNat ≤ 0x1000
      rw [Vector.getElem_set]
      split
      · rw [State.returnAddress, BitVec.toNat_add]; simp; omega
      · exact hs.stackBound j }

/-- Whatever an instruction does at a PC that has a fetch, in step (b), it keeps the invariant. -/
theorem Effect.keeps_inv {i : Instr} {s t : State} (hs : s.Inv) (hr : s.sched = .running) (hb : s.phase ≠ .boundary)
    (hpc : s.pc.toNat ≤ 0xFFE) (h : Effect i s t) : t.Inv := by
  cases h with
  | fatal r => exact hs.fatalled hr r
  | jump a _ ha =>
    refine hs.setPc ?_
    obtain ha | rfl | rfl := ha
    · exact ha
    all_goals rw [BitVec.toNat_add]; simp; omega
  | call nnn _ h => exact (hs.pushed hpc h).setPc (by rw [toNat_zextAddr]; omega)
  | ret _ h =>
    have hp : s.popped.Inv := { hs with }
    have hj := hs.stackBound ⟨s.sp.val - 1, by omega⟩
    exact hp.setPc (hj.trans (by decide))
  | regs v d =>
    have hu : { s with v := v, draws := d }.Inv := { hs with }
    exact hu.advance hpc
  | index a =>
    have hu : (s.setIndex a).Inv := { hs with }
    exact hu.advance hpc
  | store bs _ _ hm => exact (hs.storeBytes hm).advance hpc
  | display v d =>
    have hu : { s with v := v, disp := d, displayDirty := true }.Inv := { hs with }
    exact (hu.emit hb _).advance hpc
  | delay x =>
    have hu : { s with dt := s.getV x }.Inv := { hs with }
    exact hu.advance hpc
  | sound x =>
    refine (hs.soundCheck hb s.dt (s.getV x)).advance ?_
    rw [State.soundCheck_eq]
    exact hpc
  | keyWait x =>
    have hu : { s with waitActive := true, waitReg := x }.Inv := { hs with }
    exact (hu.emit hb _).advance hpc

/-- A CPU step keeps the invariant: a fetch bounds PC by 0xFFE (R86). -/
theorem cpuStep_keeps_inv {s t : State} (hs : s.Inv) (hr : s.sched = .running) (hb : s.phase ≠ .boundary)
    (h : cpuStep s = .next t) : t.Inv := by
  by_cases hpc : s.pc.toNat ≤ 0xFFE
  · rw [cpuStep, State.fetch_in hpc] at h
    simp only [executeWord] at h
    split at h
    · exact (exec_effect h).keeps_inv hs hr hb hpc
    · obtain rfl := Host.Outcome.next.inj h
      exact (hs.emit hb _).advance hpc
  · rw [cpuStep, State.fetch_out (by omega)] at h
    obtain rfl := Host.Outcome.next.inj h
    exact hs.fatalled hr _

theorem cpuPhase_keeps_inv {s t : State} {left : Nat} (hs : s.Inv) (hr : s.sched = .running) (hp : s.phase = .cpu left)
    (h : cpuPhase left s = .next t) : t.Inv := by
  have hf : s.fatal = none := hs.fatal_none (by simp [hp]) (by simp [hp])
  have to_timers : { s with phase := .timers }.Inv := hs.enterPhase hr .timers nofun (fun h => absurd hf h) nofun
  cases left with
  | zero =>
    obtain rfl := Host.Outcome.next.inj h
    exact to_timers
  | succ n =>
    simp only [cpuPhase] at h
    split at h
    · obtain rfl := Host.Outcome.next.inj h
      exact { to_timers with accCpu := le_rfl }
    · refine cpuStep_keeps_inv (hs.enterPhase hr (.cpu n) nofun (fun h => absurd hf h) fun m hm => ?_) hr nofun h
      obtain rfl := Phase.cpu.inj hm
      exact (Nat.le_succ _).trans (hs.budgetCap _ hp)

/-! ### The other phases of a tick -/

/-- The decrements leave less than one decrement of time, and SoundCheck follows them (R281, R282). -/
theorem State.Inv.timerPhase {s : State} (hs : s.Inv) (hr : s.sched = .running) (hb : s.phase ≠ .boundary) :
    s.timerPhase.Inv := by
  obtain ⟨-, hacc⟩ := timerCount_spec (add_nonneg hs.accTimer.1 hs.elapsed)
  have hu : { s with accTimer := (timerCount s.accTimer s.elapsed).2 }.Inv := { hs with accTimer := by exact_mod_cast hacc }
  rw [State.timerPhase, State.decrementTimersBy_frame]
  refine (hu.soundCheck hb _ _).enterPhase ?_ .frame nofun (fun _ => .inl rfl) nofun
  rw [State.soundCheck_eq]
  exact hr

theorem State.Inv.framePhase {s : State} (hs : s.Inv) (hr : s.sched = .running) : s.framePhase.Inv := by
  have hu : { s with phase := .events }.Inv := hs.enterPhase hr .events nofun (fun _ => .inr rfl) nofun
  unfold State.framePhase
  split
  · exact { hu with }
  · exact hu

/-- The end of a tick sends its results and, if the tick was fatal, halts with the reason (R290, R295). -/
theorem State.Inv.eventPhase {s : State} (hs : s.Inv) : s.eventPhase.Inv := by
  unfold State.eventPhase State.haltIfFatal
  split
  · exact { hs with
      tick := fun h => absurd rfl h, halt := by simp, fatalPhase := fun h => absurd rfl h, noResults := fun _ => rfl
      budgetCap := nofun }
  · next hf => exact { hs with
      tick := fun h => absurd rfl h, fatalPhase := fun h => absurd hf h, noResults := fun _ => rfl, budgetCap := nofun }

/-! ### The start of a tick -/

/-- `set_speed` clamps to [100, 3000] (R302). -/
theorem State.Inv.setSpeed {s : State} (hs : s.Inv) (r : Int) : (s.setSpeed r).Inv :=
  { hs with rate := by simp only [State.setSpeed, Config.minTickRate, Config.maxTickRate]; omega }

/-- The input controller keeps the invariant and the serializer state (R275, R276). -/
theorem State.Inv.applyEvent {s : State} (hs : s.Inv) (e : InEvent) :
    (s.applyEvent e).Inv ∧ (s.applyEvent e).sched = s.sched := by
  unfold State.applyEvent
  split
  · split
    · unfold State.completeWait
      split
      · exact ⟨{ hs with }, rfl⟩
      · exact ⟨{ hs with }, rfl⟩
    · exact ⟨hs, rfl⟩
  · split
    · exact ⟨{ hs with }, rfl⟩
    · exact ⟨hs, rfl⟩
  · exact ⟨hs.setSpeed _, rfl⟩

theorem State.Inv.drainInbound {s : State} (hs : s.Inv) : s.drainInbound.Inv ∧ s.drainInbound.sched = s.sched := by
  refine List.foldlRecOn (motive := fun u : State => u.Inv ∧ u.sched = s.sched) _ _ ⟨{ hs with }, rfl⟩ ?_
  rintro u ⟨hu, hr⟩ e -
  obtain ⟨hu', hr'⟩ := hu.applyEvent e
  exact ⟨hu', hr'.trans hr⟩

/-- The budget is within the cap and leaves no negative time (R292). -/
theorem State.Inv.budget {s : State} (hs : s.Inv) {time : Rat} (ht : 0 ≤ time) :
    (s.budget time).1 ≤ maxStepsPerTick ∧ 0 ≤ (s.budget time).2 := by
  have hrate : (0 : Rat) < s.tickRate := Nat.cast_pos.mpr (lt_of_lt_of_le (by decide) hs.rate.1)
  have hacc : 0 ≤ s.accCpu + time := add_nonneg hs.accCpu ht
  simp only [State.budget]
  split
  · exact ⟨Nat.zero_le _, le_rfl⟩
  split
  · exact ⟨le_rfl, le_rfl⟩
  · next hn =>
    obtain ⟨h1, h2, -⟩ := toNat_floor (mul_nonneg hacc hrate.le)
    exact ⟨not_lt.mp hn, sub_nonneg.mpr ((div_le_iff₀ hrate).mpr (h1 ▸ h2))⟩

theorem State.Inv.beginTick {s : State} (hs : s.Inv) (hr : s.sched = .running) {time : Rat} (ht : 0 ≤ time)
    (during : List InEvent) : (s.beginTick time during).Inv := by
  obtain ⟨hu, hur⟩ := hs.drainInbound
  obtain ⟨hcap, hacc⟩ := hu.budget ht
  exact { hu with
    accCpu := hacc, elapsed := ht
    tick := fun _ => hur.trans hr
    fatalPhase := fun h => absurd rfl h
    noResults := fun _ => rfl
    budgetCap := fun n hn => Phase.cpu.inj hn ▸ hcap }

/-! ### Inputs of the host -/

theorem State.Inv.offer {s : State} (hs : s.Inv) (e : InEvent) : (s.offer e).Inv := by
  unfold State.offer
  split
  · exact { hs with }
  all_goals
    split
    · exact hs
    · exact hs
    · exact hs.setSpeed _

theorem State.Inv.teardown {s : State} (hs : s.Inv) : s.teardown.Inv :=
  { State.created_inv with hostTime := hs.hostTime }

theorem State.Inv.loadRom {s : State} (hs : s.Inv) (bytes : List Byte) : (s.loadRom bytes).Inv := by
  unfold State.loadRom
  split
  · exact { hs with }
  · next h => exact hs.loadReset (not_lt.mp h)

theorem State.Inv.elapse {s : State} (hs : s.Inv) {time : Rat} (ht : 0 ≤ time) (during : List InEvent) :
    (s.elapse time during).Inv := by
  unfold State.elapse
  split
  · next hr => exact hs.beginTick hr ht during
  all_goals exact List.foldlRecOn _ _ hs fun u hu e _ => hu.offer e

/-- Whatever the host does next keeps the invariant. -/
theorem State.Inv.takeInput {s : State} (hs : s.Inv) : s.takeInput.Inv := by
  cases hh : s.host with
  | nil => rwa [State.takeInput_nil hh]
  | cons i rest =>
    have hu : { s with host := rest }.Inv :=
      { hs with hostTime := fun time during h => hs.hostTime time during (hh ▸ List.mem_cons_of_mem _ h) }
    rw [State.takeInput_cons hh]
    cases i with
    | offer e => exact hu.offer e
    | load bytes => exact hu.loadRom bytes
    | elapse time during => exact hu.elapse (hs.hostTime time during (hh ▸ List.mem_cons_self)) during
    | accept | dropFrame => exact { hu with }
    | teardown | teardownBetweenSteps => exact hu.teardown

/-- Settles O60, along the phases of a tick and the inputs of the host. -/
theorem everyStepKeepsTheInvariant : Obligations.EveryStepKeepsTheInvariant := by
  intro s t hs h
  simp only [step] at h
  split at h
  · cases h
  split at h
  case h_1 left hr hp =>
    split at h
    · exact Host.Outcome.next.inj h ▸ hs.takeInput
    · exact cpuPhase_keeps_inv hs hr hp h
  all_goals obtain rfl := Host.Outcome.next.inj h
  case h_2 hr hp => exact hs.timerPhase hr (by simp [hp])
  case h_3 hr _ => exact hs.framePhase hr
  case h_4 => exact hs.eventPhase
  all_goals exact hs.takeInput

end Sys2Proof.Machine
end

section
/-! PROOFS. Memory (spec 20_memory.md): the fetch and the CPU step that reads it, what stores write and what they leave alone,
and memory after a load. -/

namespace Sys2Proof.Machine

/-! ### The fetch and the CPU step -/

/-- Two bytes decode to an instruction only if their big-endian word does (R86, R103). -/
theorem decodeWord_of_decode {hi lo : Byte} {i : Instr} (h : decode [hi, lo] = .ok (i, [])) :
    decodeWord (wordOfBytes hi lo) = some i := by
  rw [decode] at h
  split at h
  · next j hj => cases h; exact hj
  · cases h

/-- A CPU step at a PC that has a fetch is `exec` of the instruction that the two bytes there decode to (R86, R100). -/
theorem cpuStep_decoded {s : State} {i : Instr} (hpc : s.pc.toNat ≤ 0xFFE)
    (hd : decode [s.readByte s.pc.toNat, s.readByte (s.pc.toNat + 1)] = .ok (i, [])) : cpuStep s = exec i s := by
  simp only [cpuStep, State.fetch_in hpc, executeWord, decodeWord_of_decode hd]

/-- A CPU step at a PC without a fetch is fatal (R264, R268). -/
theorem cpuStep_unfetched {s : State} (hpc : 0xFFE < s.pc.toNat) : cpuStep s = s.raiseFatal .fetchOutOfBounds := by
  simp only [cpuStep, State.fetch_out hpc]

/-- With budget left, no key-wait and no teardown due, a step is a CPU step, with one step less left (R102, R292). -/
theorem step_cpuStep {s : State} {n : Nat} (hlive : s.tornDown = false) (hrun : s.sched = .running)
    (hphase : s.phase = .cpu (n + 1)) (hdue : s.host.head? ≠ some (.teardownBetweenSteps (n + 1)))
    (hwait : s.waitActive = false) : step s = cpuStep { s with phase := .cpu n } := by
  rw [step_cpu hlive hrun hphase hdue, cpuPhase, hwait]
  rfl

/-- Settles O5: such a step is a CPU step, which decodes what it fetches. -/
theorem stepRunsTheDecodedInstruction : Obligations.StepRunsTheDecodedInstruction := by
  intro s n i hlive hrun hphase hdue hwait hpc hd
  rw [step_cpuStep hlive hrun hphase hdue hwait]
  exact cpuStep_decoded (s := { s with phase := .cpu n }) hpc hd

/-- Settles O6: a PC has a fetch, of a big-endian word, or the CPU step is fatal. -/
theorem fetchIsBigEndianOrFatal : Obligations.FetchIsBigEndianOrFatal := by
  intro s
  constructor
  · intro hpc
    exact ⟨_, State.fetch_in hpc, toNat_wordOfBytes _ _⟩
  · intro hpc n hlive hrun hphase hdue hwait
    rw [step_cpuStep hlive hrun hphase hdue hwait]
    exact cpuStep_unfetched (s := { s with phase := .cpu n }) hpc

/-! ### Stores -/

/-- Settles O42: of the effects, only a store changes memory, and it writes from I as many bytes as its instruction stores. -/
theorem memoryIsWrittenOnlyByStores : Obligations.MemoryIsWrittenOnlyByStores := by
  intro i s t h
  cases exec_effect h with
  | store bs _ hn => exact fun a ha => State.readByte_storeBytes_outside s _ bs (hn ▸ ha)
  | sound => rw [State.soundCheck_eq]; exact fun _ _ => rfl
  | fatal | jump | call | ret | regs | index | display | delay | keyWait => exact fun _ _ => rfl

/-- The state after `Fx55` in bounds: V0 to Vx at I, and PC + 2 (R135). -/
def State.storedRegs (s : State) (x : Reg) : State := (s.storeBytes s.dataBase (s.firstRegs x)).advance

/-- `Fx55` in bounds answers that state (R84, R135). -/
theorem exec_storeRegs_in {s : State} {x : Reg} (h : s.index.toNat + x.val ≤ 0xFFF) :
    exec (.storeRegs x) s = .next (s.storedRegs x) := by
  rw [exec, execStoreRegs, State.withData_in _ (.inr (by simp only [regCount]; omega))]
  rfl

/-- After `Fx55`, Vr stands r bytes above I (R85, R135). -/
theorem State.readByte_storedRegs (s : State) {x r : Reg} (h : r ≤ x) :
    (s.storedRegs x).readByte (s.index.toNat + r.val) = s.getV r := by
  have hr : r.val < (s.firstRegs x).length := by rw [State.length_firstRegs]; exact Nat.lt_succ_of_le h
  rw [State.storedRegs, State.readByte_advance, State.dataBase, State.readByte_storeBytes _ _ _ _ hr, State.getElem_firstRegs]

theorem State.toNat_pc_storedRegs {s : State} (x : Reg) (h : s.pc.toNat + 2 < 0x10000) :
    (s.storedRegs x).pc.toNat = s.pc.toNat + 2 := by
  rw [State.storedRegs, State.advance_pc, State.storeBytes_pc, BitVec.toNat_add]
  simp; omega

/-- After `Fx55` over the instruction that follows it, the next fetch reads the registers stored there (R86, R95). -/
theorem State.fetched_storedRegs {s : State} {x p q : Reg} (hpc : s.pc.toNat + 3 ≤ 0xFFF) (hp : p ≤ x) (hq : q ≤ x)
    (hpi : s.index.toNat + p.val = s.pc.toNat + 2) (hqi : s.index.toNat + q.val = s.pc.toNat + 3) :
    [(s.storedRegs x).readByte (s.storedRegs x).pc.toNat, (s.storedRegs x).readByte ((s.storedRegs x).pc.toNat + 1)] =
      [s.getV p, s.getV q] := by
  rw [State.toNat_pc_storedRegs x (by omega), Nat.add_assoc, ← hpi, ← hqi, s.readByte_storedRegs hp,
    s.readByte_storedRegs hq]

/-- Settles O18: the first step stores Vp and Vq where the second one fetches. -/
theorem storedCodeRunsAtTheNextStep : Obligations.StoredCodeRunsAtTheNextStep := by
  intro s n x j p q hlive hrun hphase hdue hdue' hwait hpc hd hi hp hq hpi hqi hj
  have hpc' : ({ s with phase := .cpu (n + 1) }.storedRegs x).pc.toNat = s.pc.toNat + 2 :=
    State.toNat_pc_storedRegs x (show s.pc.toNat + 2 < 0x10000 by omega)
  have hfetch := State.fetched_storedRegs (s := { s with phase := .cpu (n + 1) }) hpc hp hq hpi hqi
  refine ⟨{ s with phase := .cpu (n + 1) }.storedRegs x, ?first, rfl, ?second⟩
  case first =>
    rw [stepRunsTheDecodedInstruction s (n + 1) _ hlive hrun hphase hdue hwait (by omega) hd]
    exact exec_storeRegs_in hi
  case second =>
    exact stepRunsTheDecodedInstruction _ n j hlive hrun rfl hdue' hwait (by omega) ((congrArg decode hfetch).trans hj)

/-! ### Memory after a load -/

/-- A load of at most 3584 bytes is accepted (R303, R331). -/
theorem State.loadRom_accepted (s : State) {bytes : List Byte} (h : bytes.length ≤ 3584) :
    s.loadRom bytes = s.loadReset bytes :=
  if_neg (Nat.not_lt.mpr h)

section
variable (s : State) (bytes : List Byte)

/-- The ROM stands at 0x200 after a load (R82). -/
theorem State.readByte_loadReset_rom {j : Nat} (h : j < bytes.length) :
    (s.loadReset bytes).readByte (0x200 + j) = bytes[j] :=
  Memory.read_image 0x200 bytes j h

/-- Outside the ROM, a load leaves the reset contents (R82). -/
theorem State.readByte_loadReset_outside {a : Nat} (h : a < 0x200 ∨ 0x200 + bytes.length ≤ a) :
    (s.loadReset bytes).readByte a = Memory.unlisted a :=
  Memory.read_image_outside 0x200 bytes h

/-- The font table stands at FONT_BASE after a load (R82, R97). -/
theorem State.readByte_loadReset_font {j : Nat} (h : j < 80) :
    (s.loadReset bytes).readByte (fontBase + j) = fontTable.getD j 0 := by
  have := fontBase_le
  rw [State.readByte_loadReset_outside s bytes (.inl (by omega)), Memory.unlisted_font j h]

end

/-- Bits 3:0 of row j of the font table are zero (R97). -/
theorem fontTable_getD_low {j : Nat} (h : j < 80) : fontTable.getD j 0 &&& 0x0F#8 = 0 := by
  have hj : j < fontTable.length := length_fontTable ▸ h
  rw [List.getD_eq_getElem _ _ hj]
  exact fontTable_low (List.getElem_mem hj)

/-- Settles O56: the request is taken between ticks, and an accepted load is the load reset, field by field. -/
theorem loadResetsTheWholeBlock : Obligations.LoadResetsTheWholeBlock := by
  constructor
  · intro s bytes rest hs hh
    rw [step_betweenTicks hs, State.takeInput_cons hh]
    rfl
  · intro bytes s t hlen ht
    rw [State.loadRom_accepted s hlen] at ht
    subst ht
    refine ⟨fun j h => s.readByte_loadReset_rom bytes h, fun j h => ?font, fun a hrom hfont => ?zero, ?fields⟩
    case font =>
      rw [State.readByte_loadReset_font s bytes h]
      exact ⟨rfl, fontTable_getD_low h⟩
    case zero => rw [State.readByte_loadReset_outside s bytes hrom, Memory.unlisted_of_not_font hfont]
    case fields => simp [State.loadReset, State.getV, State.keyPressed]

end Sys2Proof.Machine
end

section
/-! PROOFS. Encoding and the CPU step (spec 30_encoding.md): decoding and encoding are inverse, the unknown words and how many
there are, and what a step does with an unknown word, in a key-wait and at a teardown. -/

namespace Sys2Proof

/-! ### Decoding what was encoded -/

/-- A well-formed instruction is the one that its word decodes to (R104, R107). -/
theorem decodeWord_encodeWord {i : Instr} (hi : i.wellFormed = true) : decodeWord (encodeWord i) = some i := by
  cases i
  case cls | ret => rfl
  case jp | call | ldI | jpV0 => simp [encodeWord, decodeWord, fields_encNnn]
  case seImm | sneImm | ldImm | addImm | rnd => simp [encodeWord, decodeWord, fields_encXkk]
  case seReg | sneReg => simp [encodeWord, decodeWord, fields_encXyn, ← BitVec.toNat_inj]
  case drw x y n =>
    have hn : n < 16 := of_decide_eq_true hi
    simp [encodeWord, decodeWord, fields_encXyn, hn]
  case skp | sknp => simp [encodeWord, decodeWord, decodeOpE, fields_encXkk]
  case ldReg | orReg | andReg | xorReg | addReg | sub | shr | subn | shl =>
    simp [encodeWord, decodeWord, decodeOp8, fields_encXyn]
  all_goals simp [encodeWord, decodeWord, decodeOpF, fields_encXkk]

/-- The two bytes of an instruction in front of any others decode as its word does (R103, R111). -/
theorem decode_encode_append (i : Instr) (rest : List Byte) (h : decodeWord (encodeWord i) = some i) :
    decode (encode i ++ rest) = .ok (i, rest) := by
  simp [encode, decode, h]

/-- Settles O1: the fields of an encoded word are the operands, and they select the instruction's row. -/
theorem decodeOfEncodeIsTheInstruction : Obligations.DecodeOfEncodeIsTheInstruction := by
  intro i hi
  have h := decodeWord_encodeWord hi
  exact ⟨h, fun rest => decode_encode_append i rest h⟩

/-! ### Encoding what was decoded -/

section
variable {w : Word} {op n : Nat}

theorem encNnn_of_fields (hop : (opOf w).toNat = op) : encNnn op (nnnOf w) = w :=
  hop ▸ encNnn_fields w

theorem encXkk_of_fields {kk : Byte} (hop : (opOf w).toNat = op) (hkk : kkOf w = kk) : encXkk op (xOf w) kk = w :=
  hop ▸ hkk ▸ encXkk_fields w

theorem encXyn_of_fields (hop : (opOf w).toNat = op) (hn : (nOf w).toNat = n) : encXyn op (xOf w) (yOf w) n = w :=
  hop ▸ hn ▸ encXyn_fields w

end

/-- `i` is well formed and `w` is its word. -/
def IsEncodingOf (w : Word) (i : Instr) : Prop := i.wellFormed = true ∧ encodeWord i = w

section
variable {w : Word} {i : Instr}

theorem isEncodingOf_of_decodeOp8 (hop : (opOf w).toNat = 0x8) (h : decodeOp8 w = some i) : IsEncodingOf w i := by
  unfold decodeOp8 at h
  split at h <;> cases h
  all_goals exact ⟨rfl, encXyn_of_fields hop ‹_›⟩

theorem isEncodingOf_of_decodeOpE (hop : (opOf w).toNat = 0xE) (h : decodeOpE w = some i) : IsEncodingOf w i := by
  unfold decodeOpE at h
  split at h <;> cases h
  all_goals exact ⟨rfl, encXkk_of_fields hop (BitVec.eq_of_toNat_eq ‹_›)⟩

theorem isEncodingOf_of_decodeOpF (hop : (opOf w).toNat = 0xF) (h : decodeOpF w = some i) : IsEncodingOf w i := by
  unfold decodeOpF at h
  split at h <;> cases h
  all_goals exact ⟨rfl, encXkk_of_fields hop (BitVec.eq_of_toNat_eq ‹_›)⟩

end

/-- Settles O2, row by row of the decode table: what a row does not put into the instruction, its condition fixes. -/
theorem encodeOfDecodeIsTheWord : Obligations.EncodeOfDecodeIsTheWord := by
  intro w i h
  unfold decodeWord at h
  split at h
  case h_1 =>
    split at h
    · next hw => cases h; exact ⟨rfl, hw.symm⟩
    · split at h
      · next hw => cases h; exact ⟨rfl, hw.symm⟩
      · cases h
  case h_9 hop => exact isEncodingOf_of_decodeOp8 hop h
  case h_15 hop => exact isEncodingOf_of_decodeOpE hop h
  case h_16 hop => exact isEncodingOf_of_decodeOpF hop h
  case h_17 => cases h
  case h_6 hop | h_10 hop =>
    split at h
    · next hn => cases h; exact ⟨rfl, encXyn_of_fields hop (congrArg BitVec.toNat hn)⟩
    · cases h
  all_goals cases h
  case h_2 hop | h_3 hop | h_11 hop | h_12 hop => exact ⟨rfl, encNnn_of_fields hop⟩
  case h_4 hop | h_5 hop | h_7 hop | h_8 hop | h_13 hop => exact ⟨rfl, encXkk_of_fields hop rfl⟩
  case h_14 hop => exact ⟨decide_eq_true (nOf w).isLt, encXyn_of_fields hop rfl⟩

/-! ### Unknown words -/

theorem decodeOp8_eq_none_iff (w : Word) :
    decodeOp8 w = none ↔ (nOf w).toNat ∈ [0x8, 0x9, 0xA, 0xB, 0xC, 0xD, 0xF] := by
  have hn := (nOf w).isLt
  unfold decodeOp8
  split
  case h_10 => simp_all; omega
  all_goals simp_all

theorem decodeOpE_eq_none_iff (w : Word) : decodeOpE w = none ↔ (kkOf w).toNat ∉ [0x9E, 0xA1] := by
  unfold decodeOpE
  split <;> simp_all

theorem decodeOpF_eq_none_iff (w : Word) :
    decodeOpF w = none ↔ (kkOf w).toNat ∉ [0x07, 0x0A, 0x15, 0x18, 0x1E, 0x29, 0x33, 0x55, 0x65] := by
  unfold decodeOpF
  split <;> simp_all

/-- The words that no row selects are those of R108, primary opcode by primary opcode. -/
theorem decodeWord_eq_none_iff (w : Word) : decodeWord w = none ↔ Machine.UnknownWord w := by
  have hn : nOf w = 0x0#4 ↔ (nOf w).toNat = 0 := BitVec.toNat_inj.symm
  unfold decodeWord Machine.UnknownWord
  split
  case h_1 hop => split <;> simp_all
  case h_6 hop | h_10 hop => simp [hop, hn]
  case h_9 hop => simp [hop, decodeOp8_eq_none_iff]
  case h_15 hop => simp [hop, decodeOpE_eq_none_iff]
  case h_16 hop => simp [hop, decodeOpF_eq_none_iff]
  case h_17 =>
    have hlt := (opOf w).isLt
    interval_cases (opOf w).toNat <;> contradiction
  all_goals next hop => simp [hop]

/-! ### How many unknown words there are -/

/-- Word k of the 4096 words of a primary opcode (R104). -/
theorem toNat_wordOfOpcode {op k : Nat} (hop : op < 16) (hk : k < 0x1000) :
    (BitVec.ofNat 16 (op * 0x1000 + k)).toNat = op * 4096 + k := by
  rw [BitVec.toNat_ofNat]; omega

/-- The unknown words of a primary opcode are counted by what marks them among its 4096 words. -/
theorem unknownCount_eq {op : Nat} (hop : op < 16) {p : Nat → Bool}
    (hp : ∀ w, (opOf w).toNat = op → (decodeWord w = none ↔ p (w.toNat % 4096) = true)) :
    Machine.unknownCount op = (List.range 0x1000).countP p := by
  refine List.countP_congr fun k hk => ?_
  have hk : k < 0x1000 := List.mem_range.mp hk
  have hw := toNat_wordOfOpcode hop hk
  rw [Option.isNone_iff_eq_none, hp _ (by rw [toNat_opOf, hw]; omega), hw]
  simp [Nat.mod_eq_of_lt hk]

/-- A test of k modulo b counts `a` times over in the first `a * b` numbers. -/
theorem countP_range_mul_mod (p : Nat → Bool) (a b : Nat) :
    (List.range (a * b)).countP (fun k => p (k % b)) = a * (List.range b).countP p := by
  induction a with
  | zero => simp
  | succ a ih =>
    have hblock : (List.range b).countP (fun k => p ((a * b + k) % b)) = (List.range b).countP p :=
      List.countP_congr fun k hk => by
        rw [Nat.mul_add_mod', Nat.mod_eq_of_lt (List.mem_range.mp hk)]
    rw [Nat.succ_mul, List.range_add, List.countP_append, List.countP_map, ih, Nat.succ_mul]
    exact congrArg _ hblock

/-- The numbers below n that a list does not name. -/
theorem countP_notMem_range {n : Nat} {l : List Nat} (hl : l.Nodup) (h : ∀ a ∈ l, a < n) :
    (List.range n).countP (fun k => decide (k ∉ l)) = n - l.length := by
  have hperm : ((List.range n).filter fun k => decide (k ∈ l)).Perm l :=
    (List.perm_ext_iff_of_nodup (List.nodup_range.filter _) hl).mpr fun a => by simpa using h a
  have hsum := List.length_eq_countP_add_countP (l := List.range n) (fun k => decide (k ∈ l))
  rw [List.length_range, List.countP_eq_length_filter, hperm.length_eq] at hsum
  simp only [decide_eq_true_eq] at hsum
  omega

/-- The unknown words of a primary opcode whose rows the field n selects: 256 for every n that selects none. -/
theorem unknownCount_of_nOf {op : Nat} {rows : List Nat} (hop : op < 16) (hrows : rows.Nodup) (hlt : ∀ n ∈ rows, n < 16)
    (h : ∀ w, (opOf w).toNat = op → (decodeWord w = none ↔ (nOf w).toNat ∉ rows)) :
    Machine.unknownCount op = 256 * (16 - rows.length) := by
  rw [← countP_notMem_range hrows hlt, ← countP_range_mul_mod, unknownCount_eq hop]
  intro w hw
  rw [h w hw, toNat_nOf, Nat.mod_mod_of_dvd _ (by decide), decide_eq_true_iff]

/-- The unknown words of a primary opcode whose rows the field kk selects: 16 for every kk that selects none. -/
theorem unknownCount_of_kkOf {op : Nat} {rows : List Nat} (hop : op < 16) (hrows : rows.Nodup)
    (hlt : ∀ kk ∈ rows, kk < 256) (h : ∀ w, (opOf w).toNat = op → (decodeWord w = none ↔ (kkOf w).toNat ∉ rows)) :
    Machine.unknownCount op = 16 * (256 - rows.length) := by
  rw [← countP_notMem_range hrows hlt, ← countP_range_mul_mod, unknownCount_eq hop]
  intro w hw
  rw [h w hw, toNat_kkOf, Nat.mod_mod_of_dvd _ (by decide), decide_eq_true_iff]

theorem unknownCount_op0 : Machine.unknownCount 0x0 = 4094 := by
  rw [unknownCount_eq (p := fun k => decide (k ∉ [0x00E0, 0x00EE])) (by decide),
    countP_notMem_range (by decide) (by decide)]
  · rfl
  · intro w hw
    have hlt : w.toNat % 4096 = w.toNat := by rw [toNat_opOf] at hw; omega
    simp [decodeWord_eq_none_iff, Machine.UnknownWord, hw, hlt, ← BitVec.toNat_inj]

theorem unknownCount_op5 : Machine.unknownCount 0x5 = 3840 :=
  unknownCount_of_nOf (rows := [0x0]) (by decide) (by decide) (by decide) fun w hw => by
    simp [decodeWord_eq_none_iff, Machine.UnknownWord, hw]

theorem unknownCount_op8 : Machine.unknownCount 0x8 = 1792 :=
  unknownCount_of_nOf (rows := [0x0, 0x1, 0x2, 0x3, 0x4, 0x5, 0x6, 0x7, 0xE]) (by decide) (by decide) (by decide)
    fun w hw => by
      have hlt := (nOf w).isLt
      have hrow : decodeWord w = none ↔ (nOf w).toNat ∈ [0x8, 0x9, 0xA, 0xB, 0xC, 0xD, 0xF] := by
        simp [decodeWord_eq_none_iff, Machine.UnknownWord, hw]
      rw [hrow]
      simp only [List.mem_cons, List.not_mem_nil, or_false]
      omega

theorem unknownCount_op9 : Machine.unknownCount 0x9 = 3840 :=
  unknownCount_of_nOf (rows := [0x0]) (by decide) (by decide) (by decide) fun w hw => by
    simp [decodeWord_eq_none_iff, Machine.UnknownWord, hw]

theorem unknownCount_opE : Machine.unknownCount 0xE = 4064 :=
  unknownCount_of_kkOf (rows := [0x9E, 0xA1]) (by decide) (by decide) (by decide) fun w hw => by
    simp [decodeWord_eq_none_iff, Machine.UnknownWord, hw]

theorem unknownCount_opF : Machine.unknownCount 0xF = 3952 :=
  unknownCount_of_kkOf (rows := [0x07, 0x0A, 0x15, 0x18, 0x1E, 0x29, 0x33, 0x55, 0x65]) (by decide) (by decide)
    (by decide) fun w hw => by
      simp [decodeWord_eq_none_iff, Machine.UnknownWord, hw]

/-- The primary opcodes that R108 does not list have no unknown word. -/
theorem unknownCount_others {op : Nat} (h : op ∈ [0x1, 0x2, 0x3, 0x4, 0x6, 0x7, 0xA, 0xB, 0xC, 0xD]) :
    Machine.unknownCount op = 0 := by
  simp only [List.mem_cons, List.not_mem_nil, or_false] at h
  rw [unknownCount_eq (p := fun _ => false) (by omega), List.countP_false]
  · rfl
  · intro w hw
    rw [decodeWord_eq_none_iff, Machine.UnknownWord]
    simp only [Bool.false_eq_true, iff_false]
    omega

/-- Settles O3: the rows of R108, then the count of each primary opcode from the field that selects its rows. -/
theorem undecodedWordsAreTheUnknownWords : Obligations.UndecodedWordsAreTheUnknownWords :=
  ⟨decodeWord_eq_none_iff, unknownCount_op0, unknownCount_op5, unknownCount_op8, unknownCount_op9, unknownCount_opE,
    unknownCount_opF, fun _ => unknownCount_others⟩

/-! ### Sample words -/

/-- Settles O4: the decoder evaluates to the instruction of each word's row. -/
theorem sampleWordsDecode : Obligations.SampleWordsDecode := by
  unfold Obligations.SampleWordsDecode
  decide

end Sys2Proof

namespace Sys2Proof.Machine

/-! ### CPU steps -/

/-- Two bytes are an unknown opcode only if their big-endian word is, and the error names it (R86, R108). -/
theorem decodeWord_of_unknownOpcode {hi lo : Byte} {w : Word} (h : decode [hi, lo] = .error (.unknownOpcode w)) :
    wordOfBytes hi lo = w ∧ decodeWord w = none := by
  rw [decode] at h
  split at h
  · cases h
  · next hw => cases h; exact ⟨rfl, hw⟩

/-- A CPU step at a PC that has a fetch has the effect of an unknown opcode when the two bytes there are one (R100, R109). -/
theorem cpuStep_unknownOpcode {s : State} {w : Word} (hpc : s.pc.toNat ≤ 0xFFE)
    (hd : decode [s.readByte s.pc.toNat, s.readByte (s.pc.toNat + 1)] = .error (.unknownOpcode w)) :
    cpuStep s = s.unknownOpcode w := by
  obtain ⟨hw, hnone⟩ := decodeWord_of_unknownOpcode hd
  simp only [cpuStep, State.fetch_in hpc, hw, executeWord, hnone]

/-- Settles O7: such a step is a CPU step, and the effect of an unknown opcode is its diagnostic and PC + 2. -/
theorem unknownOpcodeOnlyRaisesADiagnostic : Obligations.UnknownOpcodeOnlyRaisesADiagnostic := by
  intro s n w hlive hrun hphase hdue hwait hpc hd
  rw [step_cpuStep hlive hrun hphase hdue hwait]
  exact cpuStep_unknownOpcode (s := { s with phase := .cpu n }) hpc hd

/-- In a key-wait a turn of step (b) drops the rest of the budget (R102, R293). -/
theorem cpuPhase_keyWait {s : State} {left : Nat} (hleft : left ≠ 0) (hwait : s.waitActive = true) :
    cpuPhase left s = .next { s with accCpu := 0, phase := .timers } := by
  cases left with
  | zero => exact absurd rfl hleft
  | succ n => rw [cpuPhase, if_pos hwait]

/-- Settles O8: with no teardown due a step is a turn of step (b), which a key-wait and a spent budget end. -/
theorem keyWaitRunsNoInstruction : Obligations.KeyWaitRunsNoInstruction := by
  intro s n hlive hrun hphase hdue
  rw [step_cpu hlive hrun hphase hdue]
  constructor
  · exact cpuPhase_keyWait
  · rintro rfl
    rfl

/-! ### What a step can answer -/

theorem cpuStep_answers (s : State) : ∃ t, cpuStep s = .next t := by
  unfold cpuStep
  split
  · unfold executeWord
    split
    · exact exec_answers _ s
    · exact ⟨_, rfl⟩
  · exact ⟨_, rfl⟩

theorem cpuPhase_answers (left : Nat) (s : State) : ∃ t, cpuPhase left s = .next t := by
  cases left with
  | zero => exact ⟨_, rfl⟩
  | succ n =>
    rw [cpuPhase]
    split
    · exact ⟨_, rfl⟩
    · exact cpuStep_answers _

/-- A session that was torn down has no step (R299). -/
theorem step_tornDown {s : State} (h : s.tornDown = true) : step s = .fault .tornDown := by
  rw [step, if_pos h]

/-- A live session has a next state at every point of every tick (R110). -/
theorem step_answers {s : State} (hlive : s.tornDown = false) : ∃ t, step s = .next t := by
  rw [step, if_neg (by simp [hlive])]
  split
  · split
    · exact ⟨_, rfl⟩
    · exact cpuPhase_answers _ s
  all_goals exact ⟨_, rfl⟩

theorem step_ne_refused (s : State) (r : Refusal) : step s ≠ .refused r := by
  cases hlive : s.tornDown
  · obtain ⟨t, ht⟩ := step_answers hlive
    rw [ht]; nofun
  · rw [step_tornDown hlive]; nofun

/-- Settles O9: what a step answers, then the places where it takes the host's teardown. -/
theorem stepFaultsOnlyAfterTeardown : Obligations.StepFaultsOnlyAfterTeardown := by
  intro s
  refine ⟨step_ne_refused s, step_tornDown, step_answers, step_tornDown rfl, rfl, rfl, ?between, ?betweenAsDue, ?due⟩
  case between =>
    intro rest hb hh
    rw [step_betweenTicks hb, State.takeInput_cons hh]
    rfl
  case betweenAsDue =>
    intro k rest hb hh
    rw [step_betweenTicks hb, State.takeInput_cons hh]
    rfl
  case due =>
    intro n rest hlive hrun hphase hh
    rw [step_teardownDue hlive hrun hphase (by rw [hh]; rfl), State.takeInput_cons hh]
    rfl

end Sys2Proof.Machine
end

section
/-! PROOFS. Register and memory load and store (spec 40_load_store.md): the writes of a register and of I, a data access in
bounds, and one out of bounds. -/

namespace Sys2Proof.Machine

/-! ### Loads of a register and of I -/

/-- Registers written and PC + 2: memory and all other state are as before. -/
theorem State.advance_frame_v {s u : State} (h : u = { s with v := u.v }) : u.advance.pc = s.pc + 2 ∧
    SameMemory s u.advance ∧ u.advance = { s with v := u.advance.v, pc := u.advance.pc } := by
  rw [h]
  exact ⟨rfl, fun _ => rfl, rfl⟩

/-- An instruction that only writes Vx: the register read back, the frame, and PC + 2 (R31, R100). -/
theorem State.setV_done (s : State) (x : Reg) (b : Byte) : ∃ t, (s.setV x b).done = .next t ∧
    t.getV x = b ∧ SameVExcept (· = x) s t ∧ t.pc = s.pc + 2 ∧ SameMemory s t ∧ t = { s with v := t.v, pc := t.pc } :=
  ⟨(s.setV x b).advance, rfl, s.getV_setV_same x b, sameV_setV s x b, State.advance_frame_v rfl⟩

/-- Settles O10: it writes kk to Vx, and nothing else but PC. -/
theorem loadImmediate : Obligations.LoadImmediate :=
  fun x kk s => s.setV_done x kk

/-- Settles O11: it writes the old Vy to Vx, and nothing else but PC. -/
theorem copyRegister : Obligations.CopyRegister :=
  fun x y s => s.setV_done x (s.getV y)

/-- Settles O12: the zero extension of nnn is the same number. -/
theorem loadIndex : Obligations.LoadIndex :=
  fun nnn s => ⟨(s.setIndex (zextAddr nnn)).advance, rfl, toNat_zextAddr nnn, rfl, fun _ => rfl, rfl⟩

/-- The low nibble of Vx as a number (R133). -/
theorem State.digit_eq (s : State) (x : Reg) : s.digit x = (s.getV x).toNat % 16 := by
  rw [State.digit, BitVec.toNat_and]
  exact Nat.and_two_pow_sub_one_eq_mod _ 4

/-- The glyph of a digit starts inside the font table, so its address does not wrap (R10, R133). -/
theorem toNat_glyphAddress {d : Nat} (h : d < 16) : (glyphAddress d).toNat = fontBase + 5 * d := by
  have := fontBase_le
  exact Nat.mod_eq_of_lt (by omega)

/-- Settles O13: the digit is at most 15, and 16 glyphs of 5 bytes fill the table. -/
theorem fontGlyphAddress : Obligations.FontGlyphAddress := by
  intro x s
  have hlt : (s.getV x).toNat % 16 < 16 := Nat.mod_lt _ (by decide)
  have hindex : (glyphAddress (s.digit x)).toNat = fontBase + 5 * ((s.getV x).toNat % 16) := by
    rw [s.digit_eq, toNat_glyphAddress hlt]
  refine ⟨(s.setIndex (glyphAddress (s.digit x))).advance, rfl, hindex, ?inside, rfl, fun _ => rfl, rfl⟩
  case inside =>
    rw [State.advance_index, State.setIndex_index, hindex]
    omega

/-! ### Data accesses -/

/-- A data access with one of its addresses above 0xFFF is fatal (R84, R265). -/
theorem exec_dataOutOfBounds {i : Instr} {s : State} {k : Nat} (hk : k < dataBytes i) (h : 0xFFF < s.index.toNat + k) :
    exec i s = .next (s.fatalled .dataOutOfBounds) := by
  have hn : dataBytes i ≠ 0 := by omega
  have hb : 0x1000 < s.index.toNat + dataBytes i := by omega
  cases i
  case drw | ldB | storeRegs | loadRegs =>
    rw [exec]
    exact State.withData_out _ hn hb
  all_goals exact absurd rfl hn

/-- A store and PC + 2 leave every byte outside the stored ones alone (R85). -/
theorem sameMemoryOutside_storeBytes (s : State) (a : Nat) {bs : List Byte} {n : Nat} (hn : bs.length = n) :
    SameMemoryOutside a n s (s.storeBytes a bs).advance :=
  fun _ h => State.readByte_storeBytes_outside s a bs (hn ▸ h)

/-- The digits of a byte as numbers, hundreds first (R134). -/
theorem map_toNat_bcdDigits (b : Byte) :
    (bcdDigits b).map BitVec.toNat = [b.toNat / 100, b.toNat / 10 % 10, b.toNat % 10] := by
  simp [bcdDigits]

/-- The state after `Fx33` in bounds: the digits of Vx at I, and PC + 2 (R134). -/
def State.storedDigits (s : State) (x : Reg) : State := (s.storeBytes s.dataBase (bcdDigits (s.getV x))).advance

/-- `Fx33` in bounds answers that state (R84, R134). -/
theorem exec_ldB_in {s : State} {x : Reg} (h : s.index.toNat + 2 ≤ 0xFFF) :
    exec (.ldB x) s = .next (s.storedDigits x) := by
  rw [exec, execLdB, State.withData_in _ (.inr (by omega))]
  rfl

/-- After `Fx33`, digit j of Vx stands j bytes above I (R85, R134). -/
theorem State.readByte_storedDigits (s : State) (x : Reg) {j : Nat} (h : j < 3) :
    ((s.storedDigits x).readByte (s.index.toNat + j)).toNat =
      [(s.getV x).toNat / 100, (s.getV x).toNat / 10 % 10, (s.getV x).toNat % 10][j] := by
  simp only [← map_toNat_bcdDigits, List.getElem_map]
  exact congrArg BitVec.toNat (s.readByte_storeBytes _ (bcdDigits (s.getV x)) j h)

/-- Settles O14: the digits read back one by one, or the access ends above 0xFFF. -/
theorem bcdStore : Obligations.BcdStore := by
  intro x s
  constructor
  · intro h
    exact ⟨s.storedDigits x, exec_ldB_in h, s.readByte_storedDigits x (j := 0) (by decide),
      s.readByte_storedDigits x (j := 1) (by decide), s.readByte_storedDigits x (j := 2) (by decide),
      sameMemoryOutside_storeBytes s _ (length_bcdDigits _), rfl, rfl⟩
  · exact exec_dataOutOfBounds (Nat.lt_succ_self 2)

/-- Settles O15: the registers read back one by one, or the access ends above 0xFFF. -/
theorem storeRegisters : Obligations.StoreRegisters := by
  intro x s
  constructor
  · intro h
    exact ⟨s.storedRegs x, exec_storeRegs_in h, fun _ hr => s.readByte_storedRegs hr,
      sameMemoryOutside_storeBytes s _ (s.length_firstRegs x), rfl, rfl⟩
  · exact exec_dataOutOfBounds (Nat.lt_succ_self x.val)

/-- `Fx65` in bounds answers the state with V0 to Vx loaded, and PC + 2 (R84, R136). -/
theorem exec_loadRegs_in {s : State} {x : Reg} (h : s.index.toNat + x.val ≤ 0xFFF) :
    exec (.loadRegs x) s = .next (s.loadFirstRegs x).advance := by
  rw [exec, execLoadRegs, State.withData_in _ (.inr (by rw [regCount]; omega))]
  rfl

/-- Settles O16: the registers up to Vx come from memory and the others stay, or the access ends above 0xFFF. -/
theorem loadRegisters : Obligations.LoadRegisters := by
  intro x s
  constructor
  · intro h
    refine ⟨(s.loadFirstRegs x).advance, exec_loadRegs_in h, ?loaded, ?others,
      State.advance_frame_v (s.loadFirstRegs_frame x)⟩
    case loaded =>
      intro r hr
      rw [State.getV_advance, State.getV_loadFirstRegs, if_pos hr, State.dataBase]
    case others =>
      intro r hr
      rw [State.getV_advance, sameV_loadFirstRegs s x r hr]
  · exact exec_dataOutOfBounds (Nat.lt_succ_self x.val)

end Sys2Proof.Machine
end

section
/-! PROOFS. Arithmetic and logic (spec 41_arith_logic.md): the results and the flags as numbers, and the write of a register with
its flag. -/

namespace Sys2Proof.Machine

/-! ### Results without a flag -/

/-- Settles O19: byte addition is modulo 256, and it writes nothing but Vx and PC. -/
theorem addImmediate : Obligations.AddImmediate := by
  intro x kk s
  obtain ⟨t, hexec, hx, hframe⟩ := s.setV_done x (s.getV x + kk)
  exact ⟨t, hexec, by rw [hx, BitVec.toNat_add], hframe⟩

/-- An instruction that only writes Vx, its value given bit by bit (R153, R154, R155). -/
theorem State.setV_bits_done (s : State) (x : Reg) {v : Byte} {bit : Nat → Bool} (hv : ∀ b, v.getLsbD b = bit b) :
    ∃ t, (s.setV x v).done = .next t ∧ (∀ b, b < 8 → (t.getV x).getLsbD b = bit b) ∧
      SameVExcept (· = x) s t ∧ t.pc = s.pc + 2 ∧ SameMemory s t ∧ t = { s with v := t.v, pc := t.pc } := by
  obtain ⟨t, hdone, hx, hframe⟩ := s.setV_done x v
  exact ⟨t, hdone, fun b _ => by rw [hx, hv], hframe⟩

/-- Settles O20: a bit of the OR, AND or XOR of two bytes is that of their bits. -/
theorem bitwiseOperations : Obligations.BitwiseOperations :=
  fun x _ s => ⟨s.setV_bits_done x fun _ => BitVec.getLsbD_or, s.setV_bits_done x fun _ => BitVec.getLsbD_and,
    s.setV_bits_done x fun _ => BitVec.getLsbD_xor⟩

/-- `Fx1E` adds modulo 2^16 (R164). -/
theorem State.toNat_indexPlus (s : State) (x : Reg) :
    (s.indexPlus x).toNat = (s.index.toNat + (s.getV x).toNat) % 65536 := by
  rw [State.indexPlus, BitVec.toNat_add, BitVec.toNat_setWidth_of_le (by decide)]

/-- Settles O24: word addition is modulo 2^16, and it writes nothing but I and PC. -/
theorem indexAdd : Obligations.IndexAdd :=
  fun x s => ⟨(s.setIndex (s.indexPlus x)).advance, rfl, s.toNat_indexPlus x, rfl, fun _ => rfl, rfl⟩

/-- Settles O25: the draw is taken from the counter before it goes up, and a mask of 0 leaves no bit of it. -/
theorem randomByteMasked : Obligations.RandomByteMasked := by
  intro x kk s
  have hx : (s.drawn.setV x (s.nextRandom &&& kk)).advance.getV x = Config.randomByte s.draws &&& kk :=
    s.drawn.getV_setV_same x _
  refine ⟨_, rfl, hx, ?zeroMask, rfl, sameV_setV s.drawn x _, rfl, fun _ => rfl, rfl⟩
  case zeroMask =>
    rintro rfl
    exact hx.trans BitVec.and_zero

/-! ### Results with a flag -/

/-- An instruction that writes Vx and then VF: both read back as numbers, the frame, and PC + 2 (R33, R100, R150). -/
theorem State.setVFlag_done (s : State) (x : Reg) {b f : Byte} {result flag : Nat} (hb : b.toNat = result)
    (hf : f.toNat = flag) : ∃ t, (s.setVFlag x b f).done = .next t ∧ (x ≠ regF → (t.getV x).toNat = result) ∧
      (t.getV regF).toNat = flag ∧ SameVExcept (fun r => r = x ∨ r = regF) s t ∧ t.pc = s.pc + 2 ∧ SameMemory s t ∧
      t = { s with v := t.v, pc := t.pc } := by
  refine ⟨(s.setVFlag x b f).advance, rfl, ?result, ?flag, sameV_setVFlag s x b f, State.advance_frame_v rfl⟩
  case result =>
    intro hx
    rw [State.getV_advance, State.getV_setVFlag_dest s b f hx, hb]
  case flag => rw [State.getV_advance, State.getV_setVFlag_regF, hf]

/-- The flag of a condition is 1 when it holds and 0 otherwise. -/
theorem toNat_flagByte_decide (p : Prop) [Decidable p] : (flagByte (decide p)).toNat = if p then 1 else 0 := by
  by_cases h : p <;> simp [flagByte, h]

theorem toNat_carryFlag (a b : Byte) : (carryFlag a b).toNat = if 255 < a.toNat + b.toNat then 1 else 0 :=
  toNat_flagByte_decide _

theorem toNat_notBorrowFlag (a b : Byte) : (notBorrowFlag a b).toNat = if b.toNat ≤ a.toNat then 1 else 0 :=
  toNat_flagByte_decide _

/-- The bit that `8xy6` shifts out is the remainder by 2 (R160). -/
theorem toNat_shiftedOutRight (a : Byte) : (shiftedOutRight a).toNat = a.toNat % 2 := by
  rw [shiftedOutRight, BitVec.toNat_and]
  exact Nat.and_one_is_mod _

/-- The bit that `8xyE` shifts out is 1 from 128 on (R162). -/
theorem toNat_shiftedOutLeft (a : Byte) : (shiftedOutLeft a).toNat = a.toNat / 128 := by
  rw [shiftedOutLeft, BitVec.toNat_ushiftRight, Nat.shiftRight_eq_div_pow]

/-- Byte subtraction with the borrow added to the minuend first (R151, R157). -/
theorem toNat_sub_byte (a b : Byte) : (a - b).toNat = (a.toNat + 256 - b.toNat) % 256 := by
  have := b.isLt
  rw [BitVec.toNat_sub]
  omega

/-- A byte shifted right by one is halved (R160). -/
theorem toNat_shiftRight_one (a : Byte) : (a >>> 1).toNat = a.toNat / 2 := by
  rw [BitVec.toNat_ushiftRight, Nat.shiftRight_one]

/-- A byte shifted left by one is doubled modulo 256 (R162). -/
theorem toNat_shiftLeft_one (a : Byte) : (a <<< 1).toNat = a.toNat * 2 % 256 := by
  rw [BitVec.toNat_shiftLeft, Nat.shiftLeft_eq]

/-- Settles O21: the sum modulo 256, then its carry. -/
theorem addWithCarry : Obligations.AddWithCarry :=
  fun x _ s => s.setVFlag_done x (BitVec.toNat_add _ _) (toNat_carryFlag _ _)

/-- Settles O22: one difference for both directions, with Vx as the minuend or the subtrahend. -/
theorem subtractWithNotBorrow : Obligations.SubtractWithNotBorrow :=
  fun x _ s => ⟨s.setVFlag_done x (toNat_sub_byte _ _) (toNat_notBorrowFlag _ _),
    s.setVFlag_done x (toNat_sub_byte _ _) (toNat_notBorrowFlag _ _)⟩

/-- Settles O23: neither meaning takes y, and each writes the shifted Vx, then the bit shifted out. -/
theorem shiftsActOnTheDestination : Obligations.ShiftsActOnTheDestination := by
  intro x y s
  constructor
  · obtain ⟨t, ht⟩ := s.setVFlag_done x (toNat_shiftRight_one (s.getV x)) (toNat_shiftedOutRight (s.getV x))
    exact ⟨t, fun _ => rfl, ht⟩
  · obtain ⟨t, ht⟩ := s.setVFlag_done x (toNat_shiftLeft_one (s.getV x)) (toNat_shiftedOutLeft (s.getV x))
    exact ⟨t, fun _ => rfl, ht⟩

end Sys2Proof.Machine
end

section
/-! PROOFS. Conditional skips (spec 42_skips.md): each writes PC only, and the two key skips read the key numbered by the low 4
bits of Vx. -/

namespace Sys2Proof.Machine

/-- A skip on a condition differs from the old state in PC only (R180). -/
theorem State.next_skipIf (s : State) {c : Bool} {p : Prop} [Decidable p] (h : c = true ↔ p) :
    (.next (s.skipIf c) : Result) = .next { s with pc := s.pc + if p then 4 else 2 } := by
  rw [State.skipIf_eq, State.setPc]
  simp only [h]

/-- The key number of a key skip is Vx modulo 16 (R187). -/
theorem State.keyNumber_val (s : State) (x : Reg) : (s.keyNumber x).val = (s.getV x).toNat % 16 :=
  BitVec.extractLsb'_toNat 0 4 (s.getV x)

/-- Settles O26: each is a skip on its own comparison. -/
theorem registerSkips : Obligations.RegisterSkips := fun _ _ _ s =>
  ⟨s.next_skipIf decide_eq_true_iff, s.next_skipIf decide_eq_true_iff, s.next_skipIf decide_eq_true_iff,
    s.next_skipIf decide_eq_true_iff⟩

/-- Settles O27: the key numbered by the low 4 bits of Vx is key k, and `ExA1` skips on the negated test of it. -/
theorem keySkips : Obligations.KeySkips := by
  intro x k s hk
  have key : s.keyNumber x = k := Fin.ext ((s.keyNumber_val x).trans hk.symm)
  subst key
  exact ⟨s.next_skipIf Iff.rfl, s.next_skipIf (Bool.not_eq_true' _).to_iff⟩

end Sys2Proof.Machine
end

section
/-! PROOFS. Control transfer (spec 43_control_transfer.md): the jump targets as numbers, what a push leaves in the stack, and a
pop as the inverse of a push. -/

namespace Sys2Proof.Machine

/-! ### Jumps -/

/-- The target of `Bnnn` does not wrap (R202). -/
theorem State.toNat_jumpV0Target (s : State) (nnn : BitVec 12) :
    (s.jumpV0Target nnn).toNat = nnn.toNat + (s.getV 0).toNat := by
  rw [State.jumpV0Target, BitVec.toNat_add, toNat_zextAddr, BitVec.toNat_setWidth_of_le (by decide)]
  omega

/-- Settles O28: both write PC alone, and neither target wraps. -/
theorem jumps : Obligations.Jumps := fun nnn s =>
  ⟨⟨s.setPc (zextAddr nnn), rfl, toNat_zextAddr nnn, rfl⟩,
    ⟨s.setPc (s.jumpV0Target nnn), rfl, s.toNat_jumpV0Target nnn, rfl⟩⟩

/-! ### The call stack -/

/-- A push writes entry SP, and no other (R203). -/
theorem State.stack_pushed (s : State) (h : s.sp.val < 16) (j : Fin 16) :
    (s.pushed h).stack[j.val] = if j.val = s.sp.val then s.pc + 2 else s.stack[j.val] := by
  simp only [State.pushed, State.returnAddress, Vector.getElem_set, eq_comm]

/-- With SP = j + 1 the top of the stack is entry j (R204). -/
theorem State.top_eq_getElem {s : State} {j : Fin 16} (hs : s.sp.val = j.val + 1) (h : 0 < s.sp.val) :
    s.top h = s.stack[j.val] := by
  simp only [State.top, hs, Nat.add_sub_cancel]

/-- What a call pushes is on top of the stack in the state it jumps to (R203, R204). -/
theorem State.top_pushed_setPc (s : State) (hs : s.sp.val < 16) (a : Word) (h : 0 < ((s.pushed hs).setPc a).sp.val) :
    ((s.pushed hs).setPc a).top h = s.pc + 2 := by
  rw [State.top_eq_getElem (j := ⟨s.sp.val, hs⟩) rfl h]
  exact (s.stack_pushed hs _).trans (if_pos rfl)

/-- A pop takes the pushed entry out of use and leaves it stored (R41, R204). -/
theorem State.popped_pushed_setPc (s : State) (h : s.sp.val < 16) (a : Word) :
    ((s.pushed h).setPc a).popped = { s with stack := (s.pushed h).stack, pc := a } := rfl

/-- Settles O29: a push and a jump while an entry is free, a fatal result when none is. -/
theorem call : Obligations.Call := by
  intro nnn s
  constructor
  · intro h
    exact ⟨(s.pushed h).setPc (zextAddr nnn), exec_call_free nnn h, toNat_zextAddr nnn, rfl, s.stack_pushed h,
      fun _ => rfl, rfl⟩
  · exact exec_call_full nnn

/-- Settles O30: PC is the top entry while one is in use, and an empty stack is fatal. -/
theorem return_ : Obligations.Return := by
  intro s
  constructor
  · intro j hj
    have hpos : 0 < s.sp.val := by omega
    have hsp : s.popped.sp.val = j.val := Nat.sub_eq_of_eq_add hj
    exact ⟨s.popped.setPc (s.top hpos), exec_ret_some hpos, State.top_eq_getElem hj hpos, hsp, fun _ => rfl, rfl⟩
  · exact exec_ret_empty

/-- Settles O31: the return finds the pushed address on top, and the push wrote no entry that was in use. -/
theorem returnContinuesAfterTheCall : Obligations.ReturnContinuesAfterTheCall := by
  intro nnn s h
  have hpos : 0 < ((s.pushed h).setPc (zextAddr nnn)).sp.val := Nat.succ_pos _
  refine ⟨_, _, exec_call_free nnn h, exec_ret_some hpos, s.top_pushed_setPc h _ hpos, ?frame, ?inUse⟩
  case frame => rw [State.popped_pushed_setPc]; rfl
  case inUse =>
    intro j hj
    exact (s.stack_pushed h j).trans (if_neg hj.ne)

end Sys2Proof.Machine
end

section
/-! PROOFS. The display (spec 44_display.md): a sprite's bits as the pixels that a draw inverts, the two display instructions, and
the end of a tick, which hands the buffer and the events to the host (60_exceptions.md R290, R295, R296). -/

namespace Sys2Proof.Machine

/-! ### Drawing on the buffer -/

/-- The pixel at column x0 + b, row y0 + r lies under bit 7 - b of row r (R221). -/
theorem spriteBit_inside {rows : List Byte} {r b : Nat} (x0 y0 : Nat) (hr : r < rows.length) (hb : b < 8) :
    spriteBit x0 y0 rows (x0 + b) (y0 + r) = (rows.getD r 0).getLsbD (7 - b) := by
  have hin : x0 ≤ x0 + b ∧ x0 + b < x0 + 8 ∧ y0 ≤ y0 + r ∧ y0 + r < y0 + rows.length := by omega
  rw [spriteBit, decide_eq_true hin, Nat.add_sub_cancel_left, Nat.add_sub_cancel_left, Bool.true_and]

/-- A sprite has no bit outside its eight columns and its rows (R221). -/
theorem spriteBit_outside {x0 y0 : Nat} {rows : List Byte} {x y : Nat}
    (h : ¬(x0 ≤ x ∧ x < x0 + 8 ∧ y0 ≤ y ∧ y < y0 + rows.length)) : spriteBit x0 y0 rows x y = false := by
  rw [spriteBit, decide_eq_false h, Bool.false_and]

/-- A set pixel lies on the screen. -/
theorem Display.on_of_pixel {d : Display} {x y : Nat} (h : d.pixel x y = true) : x < 64 ∧ y < 32 := by
  by_contra hoff
  exact Bool.false_ne_true ((d.pixel_off hoff).symm.trans h)

section
variable (d : Display) (x0 y0 : Nat) (rows : List Byte)

/-- On the screen a draw inverts exactly the pixels under a set sprite bit (R221). -/
theorem Display.pixel_draw_on {x y : Nat} (hx : x < 64) (hy : y < 32) :
    (d.draw x0 y0 rows).1.pixel x y = (d.pixel x y ^^ spriteBit x0 y0 rows x y) := by
  rw [Display.pixel_draw, decide_eq_true ⟨hx, hy⟩, Bool.and_true]

/-- A draw collides exactly when a pixel goes from 1 to 0: a set pixel is cleared exactly under a set bit (R223). -/
theorem Display.collision_draw_iff_cleared : (d.draw x0 y0 rows).2 = true ↔
    ∃ x y, x < 64 ∧ y < 32 ∧ d.pixel x y = true ∧ (d.draw x0 y0 rows).1.pixel x y = false := by
  rw [Display.collision_draw]
  constructor
  · rintro ⟨x, y, hbit, hset⟩
    obtain ⟨hx, hy⟩ := Display.on_of_pixel hset
    exact ⟨x, y, hx, hy, hset, by rw [Display.pixel_draw_on _ _ _ _ hx hy, hset, hbit]; rfl⟩
  · rintro ⟨x, y, hx, hy, hset, hclear⟩
    rw [Display.pixel_draw_on _ _ _ _ hx hy, hset, Bool.true_xor, Bool.not_eq_false'] at hclear
    exact ⟨x, y, hclear, hset⟩

/-- A second draw of the same sprite inverts the same pixels again (R225). -/
theorem Display.draw_draw : ((d.draw x0 y0 rows).1.draw x0 y0 rows).1 = d := by
  apply Display.ext_pixel
  intro x y
  rw [Display.pixel_draw, Display.pixel_draw, Bool.xor_assoc, Bool.xor_self, Bool.xor_false]

end

/-- Settles O32: inside the sprite its bit decides, outside it there is none, and the collision is a set pixel cleared. -/
theorem drawXorsThePixelsOfTheSprite : Obligations.DrawXorsThePixelsOfTheSprite := by
  intro d x0 y0 rows _ _
  refine ⟨?inside, ?outside, d.collision_draw_iff_cleared x0 y0 rows⟩
  case inside =>
    intro r b hr hb hx hy
    rw [d.pixel_draw_on x0 y0 rows hx hy, spriteBit_inside x0 y0 hr hb]
  case outside =>
    intro x y hout
    rw [Display.pixel_draw, spriteBit_outside hout, Bool.false_and, Bool.xor_false]

/-! ### The display instructions -/

/-- A new buffer contents and PC + 2: the dirty bit is set and reported, memory and all other state are as before (R226). -/
theorem State.showDisplay_advance_frame {s u : State} (d : Display) (h : u = { s with v := u.v }) :
    (u.showDisplay d).advance.displayDirty = true ∧
    (u.showDisplay d).advance.results = s.results ++ [.displayDirty] ∧ (u.showDisplay d).advance.pc = s.pc + 2 ∧
    SameMemory s (u.showDisplay d).advance ∧
    (u.showDisplay d).advance = { s with
      v := u.v, disp := d, displayDirty := true, results := s.results ++ [.displayDirty], pc := s.pc + 2 } := by
  rw [h]
  exact ⟨rfl, rfl, rfl, fun _ => rfl, rfl⟩

/-- Settles O33: the buffer shown is the cleared one, and no register is written. -/
theorem clearDisplay : Obligations.ClearDisplay := fun s =>
  ⟨(s.showDisplay Display.cleared).advance, rfl, Display.pixel_cleared, State.showDisplay_advance_frame _ rfl⟩

/-- The state after `Dxyn` in bounds: the collision in VF, the drawn buffer shown, and PC + 2 (R225, R226). -/
def State.drew (s : State) (x y : Reg) (n : Nat) : State :=
  ((s.setV regF (collisionFlag (s.drawSprite x y n).2)).showDisplay (s.drawSprite x y n).1).advance

section
variable {s : State} {x y : Reg} {n : Nat}

/-- `Dxyn` in bounds answers that state (R84, R225). -/
theorem exec_drw_in (h : n = 0 ∨ s.index.toNat + n ≤ 0x1000) : exec (.drw x y n) s = .next (s.drew x y n) := by
  rw [exec, execDrw, State.withData_in _ h]
  rfl

/-- The buffer after `Dxyn` is the drawn one (R225). -/
theorem State.disp_drew : (s.drew x y n).disp = (s.drawSprite x y n).1 := rfl

/-- VF after `Dxyn` is the collision of its sprite (R223, R225). -/
theorem State.getV_regF_drew : (s.drew x y n).getV regF = collisionFlag (s.drawSprite x y n).2 :=
  s.getV_setV_same regF _

/-- `Dxyn` changes no register but VF (R225). -/
theorem State.getV_drew_of_ne {r : Reg} (hr : r ≠ regF) : (s.drew x y n).getV r = s.getV r :=
  s.getV_setV_ne _ hr

/-- With x and y other than F, a second `Dxyn` draws the same sprite at the same place (R222, R225). -/
theorem State.drawSprite_drew (hx : x ≠ regF) (hy : y ≠ regF) :
    (s.drew x y n).drawSprite x y n =
      (s.drew x y n).disp.draw (s.spriteColumn x) (s.spriteRow y) (s.spriteRows n) := by
  rw [State.drawSprite, State.spriteColumn, State.spriteRow, State.getV_drew_of_ne hx, State.getV_drew_of_ne hy]
  rfl

end

theorem collisionFlag_eq_one_iff (c : Bool) : collisionFlag c = 1 ↔ c = true := by cases c <;> decide

theorem collisionFlag_eq_one_or_zero (c : Bool) : collisionFlag c = 1 ∨ collisionFlag c = 0 := by cases c <;> decide

/-- Settles O34: the buffer is drawn on with the rows read at I, and VF is the collision of that draw. -/
theorem drawSprite : Obligations.DrawSprite := by
  intro x y n s hbounds
  refine ⟨s.drew x y n, exec_drw_in hbounds, ?pixels, ?flag, ?collision, fun _ hr => State.getV_drew_of_ne hr,
    State.showDisplay_advance_frame _ rfl⟩
  case pixels =>
    intro px py hx hy
    rw [← s.spriteRows_eq n]
    exact s.disp.pixel_draw_on _ _ _ hx hy
  case flag =>
    rw [State.getV_regF_drew]
    exact collisionFlag_eq_one_or_zero _
  case collision =>
    rw [State.getV_regF_drew, collisionFlag_eq_one_iff]
    exact s.disp.collision_draw_iff_cleared _ _ _

/-- Settles O35: the second draw has the same place and rows, and undoes the first. -/
theorem drawingTwiceRestoresTheBuffer : Obligations.DrawingTwiceRestoresTheBuffer := by
  intro x y n s hx hy hbounds
  refine ⟨s.drew x y n, (s.drew x y n).drew x y n, exec_drw_in hbounds, exec_drw_in hbounds, ?_⟩
  rw [State.disp_drew, State.drawSprite_drew hx hy]
  exact s.disp.draw_draw _ _ _

/-! ### The end of a tick -/

/-- Step (d) as one update: the frame goes out if the dirty bit is set, which clears it (R290, R304). -/
theorem State.framePhase_eq (s : State) : s.framePhase = { s with
    outbound := s.outbound ++ if s.displayDirty then [.frame s.disp.frame] else []
    displayDirty := false, phase := .events } := by
  unfold State.framePhase
  by_cases hdirty : s.displayDirty = true
  · simp only [hdirty, if_true]
  · simp only [Bool.eq_false_of_not_eq_true hdirty, Bool.false_eq_true, if_false, List.append_nil]

/-- Step (e) as one update: the events of the results, then `halted` if the tick was fatal, and the diagnostics (R290, R295). -/
theorem State.eventPhase_eq (s : State) : s.eventPhase = { s with
    outbound := s.outbound ++ eventsOf s.results ++ (s.fatal.map .halted).toList
    diagnostics := s.diagnostics ++ diagnosticsOf s.results
    sched := if s.fatal = none then s.sched else .halted
    haltReason := s.fatal.or s.haltReason
    results := [], fatal := none, phase := .boundary } := by
  rw [eventsOf_eq, diagnosticsOf_eq]
  unfold State.eventPhase State.haltIfFatal State.forwardResults
  cases s.fatal <;> simp

/-- From step (d), two steps end the tick in the state after steps (d) and (e) (R290). -/
theorem step_step_of_frame {s : State} (hlive : s.tornDown = false) (hrun : s.sched = .running) (hphase : s.phase = .frame) :
    step s = .next s.framePhase ∧ step s.framePhase = .next s.framePhase.eventPhase := by
  refine ⟨step_frame hlive hrun hphase, ?_⟩
  rw [State.framePhase_eq]
  exact step_events hlive hrun rfl

/-- Between two ticks a step applies the host's next input (R295, R297, R309). -/
theorem step_input {s : State} {i : HostInput} {rest : List HostInput} (hbetween : s.betweenTicks) (hhost : s.host = i :: rest) :
    step s = .next ({ s with host := rest }.applyInput i) := by
  rw [step_betweenTicks hbetween, State.takeInput_cons hhost]

/-- Settles O52: steps (d) and (e) as the two updates they are, and the host's two liberties between ticks. -/
theorem tickEndsWithFrameEventsAndHalt : Obligations.TickEndsWithFrameEventsAndHalt := by
  refine ⟨?tick, ?channel⟩
  case tick =>
    intro s hlive hrun hphase
    obtain ⟨hd, he⟩ := step_step_of_frame hlive hrun hphase
    refine ⟨s.framePhase, s.framePhase.eventPhase, hd, he, ?_⟩
    rw [State.eventPhase_eq, State.framePhase_eq]
    refine ⟨rfl, rfl, rfl, rfl, ⟨s.disp.frame, s.disp.length_frame, fun x y => s.disp.getElem?_frame, rfl⟩, rfl,
      ?fatal, ?notFatal, rfl⟩
    case fatal =>
      intro r hr
      simp [hr]
    case notFatal =>
      intro hr
      simp [hr, hrun]
  case channel =>
    intro s rest hbetween
    constructor
    · intro hhost
      refine ⟨{ s with host := rest }.applyInput .accept, step_input hbetween hhost, ?_, rfl⟩
      change s.outbound = s.outbound.head?.toList ++ s.outbound.tail
      rw [← List.take_one, ← List.drop_one, List.take_append_drop]
    · intro n hhost
      obtain ⟨hnotes, hframes⟩ := dropFrameAt_keeps n s.outbound
      exact ⟨{ s with host := rest }.applyInput (.dropFrame n), step_input hbetween hhost, hnotes, dropFrameAt_sublist n _,
        hframes, rfl⟩

end Sys2Proof.Machine
end

section
/-! PROOFS. Timer access and key wait (spec 45_timers_input.md): the two delay timer instructions, `Fx18` with the SoundCheck it
runs, and the latch that `Fx0A` sets. -/

namespace Sys2Proof.Machine

/-- Settles O36: `Fx07` is a plain write of Vx, `Fx15` one of DT. -/
theorem delayTimerAccess : Obligations.DelayTimerAccess := fun x s =>
  ⟨s.setV_done x s.dt, State.advance { s with dt := s.getV x }, rfl, rfl, rfl, fun _ => rfl, rfl⟩

/-- SoundCheck latches whether the sound timer runs (R243). -/
theorem State.soundOn_soundCheck_iff (s : State) : s.soundCheck.soundOn = true ↔ 0 < s.st.toNat := by
  rw [State.soundCheck_eq, decide_eq_true_iff, Nat.pos_iff_ne_zero]
  exact BitVec.toNat_ne_iff_ne.symm

/-- Settles O37: the latch is the one SoundCheck leaves, and SoundCheck reports it exactly when it flips. -/
theorem soundTimerSet : Obligations.SoundTimerSet := by
  intro x s
  have hlatch := State.soundOn_soundCheck_iff { s with st := s.getV x }
  refine ⟨({ s with st := s.getV x }.soundCheck).advance, rfl, ?_⟩
  rw [State.soundCheck_eq] at hlatch ⊢
  exact ⟨rfl, hlatch, rfl, rfl, fun _ => rfl, rfl⟩

/-- Settles O38: `Fx0A` writes the latch, the report and PC, and no register. -/
theorem keyWaitBegins : Obligations.KeyWaitBegins := fun x s =>
  ⟨({ s with waitActive := true, waitReg := x }.emit (.enteredKeyWait x)).advance, rfl, rfl, rfl, rfl, rfl, fun _ => rfl,
    fun _ => rfl, rfl⟩

end Sys2Proof.Machine
end

section
/-! PROOFS. Exceptions, the input controller, the timers and the serializer (spec 60_exceptions.md): fatal results, the events
that a tick starts with, its budget and its end, the timer decrements, and Idle and Halted. -/

namespace Sys2Proof.Machine

/-! ### Fatal results -/

/-- Settles O17: one of the checked addresses is above 0xFFF. -/
theorem dataAccessAboveTheEndIsFatal : Obligations.DataAccessAboveTheEndIsFatal :=
  fun _ _ ⟨_, hk, h⟩ => exec_dataOutOfBounds hk h

/-- Settles O39: an instruction that is not fatal keeps the tick's reason, which was none. -/
theorem fatalInstructionsChangeNothing : Obligations.FatalInstructionsChangeNothing := by
  intro i s t r hs h ht
  obtain ⟨-, -, -, ⟨-, hf⟩ | ⟨r', rfl⟩⟩ := exec_tick h
  · rw [hf, hs] at ht
    cases ht
  · obtain rfl : r' = r := Option.some.inj ht
    rfl

/-! ### Input controller -/

/-- A key in 0..15 is the one its number names (R275). -/
theorem keyIndex_val (r : Reg) : keyIndex r.val = some r := by
  rw [keyIndex, dif_pos (by omega)]
  simp

/-- Any other number names no key (R275). -/
theorem keyIndex_outside {k : Int} (h : k < 0 ∨ 15 < k) : keyIndex k = none := by
  rw [keyIndex, dif_neg (by omega)]

section
variable (s : State) (r : Reg)

theorem State.applyEvent_keyDown : s.applyEvent (.keyDown r.val) = (s.setKey r true).completeWait r := by
  rw [State.applyEvent, keyIndex_val]

theorem State.applyEvent_keyUp : s.applyEvent (.keyUp r.val) = s.setKey r false := by
  rw [State.applyEvent, keyIndex_val]

/-- Without a key-wait there is nothing to complete (R276). -/
theorem State.completeWait_inactive (h : s.waitActive = false) : s.completeWait r = s := by
  rw [State.completeWait, h]
  rfl

/-- A key-wait ends with the key number in its register (R276). -/
theorem State.completeWait_active (h : s.waitActive = true) :
    s.completeWait r = { s.setV s.waitReg (BitVec.ofNat 8 r.val) with waitActive := false } := by
  rw [State.completeWait, if_pos h]

end

/-- Settles O46: a key in 0..15 sets its state and completes a key-wait, any other one is discarded. -/
theorem keyEvents : Obligations.KeyEvents := by
  intro s k
  refine ⟨?noWait, ?wait, ?up, ?outside⟩
  case noWait =>
    rintro r rfl hwait
    rw [State.applyEvent_keyDown]
    exact State.completeWait_inactive (s.setKey r true) r hwait
  case wait =>
    rintro r rfl hwait
    rw [State.applyEvent_keyDown, State.completeWait_active (s.setKey r true) r hwait]
    exact ⟨State.getV_setV_same _ _ _, sameV_setV (s.setKey r true) s.waitReg _, rfl⟩
  case up =>
    rintro r rfl
    exact s.applyEvent_keyUp r
  case outside =>
    intro h
    simp only [State.applyEvent, keyIndex_outside h, and_self]

/-- Settles O47: the clamped rate is not negative, so it is the same number as a natural. -/
theorem speedIsClamped : Obligations.SpeedIsClamped :=
  fun _ r => ⟨rfl, Int.toNat_of_nonneg (show 0 ≤ min (max r 100) 3000 by omega)⟩

/-! ### The start of a tick -/

/-- An event leaves the queue alone (R291). -/
theorem State.inq_applyEvent (s : State) (e : InEvent) : (s.applyEvent e).inq = s.inq := by
  unfold State.applyEvent
  split
  · split
    · unfold State.completeWait
      split <;> rfl
    · rfl
  · split <;> rfl
  · rfl

/-- So do events one after the other. -/
theorem State.inq_foldl_applyEvent (es : List InEvent) (s : State) : (es.foldl State.applyEvent s).inq = s.inq :=
  List.foldlRecOn (motive := fun u : State => u.inq = s.inq) es _ rfl
    fun u hu e _ => (u.inq_applyEvent e).trans hu

section
variable {s : State} {time : Rat}

/-- A key-wait has no budget (R292, R293). -/
theorem State.budget_keyWait (h : s.waitActive = true) : s.budget time = (0, 0) := by
  rw [State.budget, if_pos h]

/-- A budget within the cap takes its time from the accumulator (R292). -/
theorem State.budget_within (h : s.waitActive = false)
    (hcap : ((s.accCpu + time) * s.tickRate).floor ≤ maxStepsPerTick) :
    s.budget time = (((s.accCpu + time) * s.tickRate).floor.toNat,
      s.accCpu + time - ((s.accCpu + time) * s.tickRate).floor.toNat / s.tickRate) := by
  rw [State.budget, if_neg (by simp [h])]
  exact if_neg (by omega)

/-- A budget above the cap is cut to it, and the accumulated time is dropped (R292). -/
theorem State.budget_capped (h : s.waitActive = false)
    (hcap : maxStepsPerTick < ((s.accCpu + time) * s.tickRate).floor) : s.budget time = (maxStepsPerTick, 0) := by
  rw [State.budget, if_neg (by simp [h])]
  exact if_pos (by omega)

theorem State.budget_le_cap (s : State) (time : Rat) : (s.budget time).1 ≤ maxStepsPerTick := by
  cases hwait : s.waitActive
  · rcases le_or_gt ((s.accCpu + time) * s.tickRate).floor maxStepsPerTick with hcap | hcap
    · rw [State.budget_within hwait hcap]
      exact Int.toNat_le.mpr hcap
    · rw [State.budget_capped hwait hcap]
  · rw [State.budget_keyWait hwait]
    exact Nat.zero_le _

end

/-- While Running, wall time starts a tick (R290). -/
theorem State.elapse_running (s : State) (h : s.sched = .running) (time : Rat) (during : List InEvent) :
    s.elapse time during = s.beginTick time during := by
  rw [State.elapse, h]

/-- While Running, an event offered is queued (R300). -/
theorem State.offer_running (s : State) (h : s.sched = .running) (e : InEvent) :
    s.offer e = { s with inq := s.inq ++ [e] } := by
  unfold State.offer
  rw [h]

/-- With no input of the host, a block between two ticks waits. -/
theorem step_noInput {s : State} (hbetween : s.betweenTicks) (hhost : s.host = []) : step s = .next s := by
  rw [step_betweenTicks hbetween, State.takeInput_nil hhost]

/-- Settles O48: the input taken between two ticks starts one, with the budget of the state after the queued events. -/
theorem tickStartsWithEventsAndBudget : Obligations.TickStartsWithEventsAndBudget := by
  intro s hlive hrun hphase
  have hbetween : s.betweenTicks := ⟨hlive, .inr hphase⟩
  refine ⟨?tick, ?offer, step_noInput hbetween⟩
  case tick =>
    intro u time during rest hhost hu
    have hinq : u.inq = [] := hu ▸ State.inq_foldl_applyEvent _ _
    refine ⟨(u.budget time).1, (u.budget time).2, ?next, hinq, u.budget_le_cap time, fun hwait => ?keyWait,
      fun hwait hcap => ?within, fun hwait hcap => ?capped⟩
    case next =>
      rw [step_input hbetween hhost, State.applyInput, State.elapse_running { s with host := rest } hrun, hu]
      rfl
    case keyWait =>
      rw [State.budget_keyWait hwait]
      exact ⟨rfl, rfl⟩
    case within =>
      rw [State.budget_within hwait hcap]
      exact ⟨rfl, rfl⟩
    case capped =>
      rw [State.budget_capped hwait hcap]
      exact ⟨rfl, rfl⟩
  case offer =>
    intro e rest hhost
    rw [step_input hbetween hhost, State.applyInput, State.offer_running { s with host := rest } hrun]

/-! ### Timers -/

/-- The decrements of a tick as an integer (R281). -/
theorem timerCount_eq_floor {acc t : Rat} (h : 0 ≤ acc + t) : ((timerCount acc t).1 : Int) = ((acc + t) * 60).floor :=
  Int.toNat_of_nonneg (Rat.le_floor_iff.mpr (by rw [Int.cast_zero]; exact mul_nonneg h (Nat.cast_nonneg _)))

/-- The time left after the decrements of a tick (R281). -/
theorem timerCount_rest (acc t : Rat) : (timerCount acc t).2 = acc + t - (timerCount acc t).1 / 60 := rfl

/-- The timer phase ends with a SoundCheck, and nothing before it touches the latch or the results (R280, R282). -/
theorem State.timerPhase_eq_soundCheck (s : State) :
    ∃ u : State, u.soundOn = s.soundOn ∧ u.results = s.results ∧ s.timerPhase = { u.soundCheck with phase := .frame } := by
  refine ⟨_, ?_, ?_, rfl⟩ <;> rw [State.decrementTimersBy_frame]

/-- DT and ST at the end of the timer phase (R280, R281). -/
theorem State.toNat_timers_timerPhase (s : State) :
    s.timerPhase.dt.toNat = s.dt.toNat - (timerCount s.accTimer s.elapsed).1 ∧
    s.timerPhase.st.toNat = s.st.toNat - (timerCount s.accTimer s.elapsed).1 := by
  rw [State.timerPhase_eq]
  exact ⟨s.decrementTimersBy_dt _, s.decrementTimersBy_st _⟩

/-- Settles O49: each timer loses the decrements of the tick, and SoundCheck follows. -/
theorem timerPhase : Obligations.TimerPhase := by
  intro s hlive hrun hphase hacc
  obtain ⟨hdt, hst⟩ := s.toNat_timers_timerPhase
  obtain ⟨u, hon, hres, hcheck⟩ := s.timerPhase_eq_soundCheck
  have hlatch := u.soundOn_soundCheck_iff
  rw [State.soundCheck_eq] at hcheck hlatch
  refine ⟨(timerCount s.accTimer s.elapsed).1, s.timerPhase, step_timers hlive hrun hphase, timerCount_eq_floor hacc, ?rest,
    hdt, hst, ?latch, ?results, ?frame⟩
  case rest =>
    rw [State.timerPhase_eq]
    exact timerCount_rest _ _
  case latch =>
    rw [hcheck]
    exact hlatch
  case results => rw [hcheck, ← hon, ← hres]
  case frame => rw [State.timerPhase_eq]

/-- From an accumulator with less than one decrement, ticks take the decrements of the whole time (R281). -/
theorem totalDecrements_eq_floor {acc : Rat} (h : 0 ≤ acc) (h' : acc * 60 < 1) {times : List Rat}
    (ht : ∀ t ∈ times, 0 ≤ t) :
    (totalDecrements acc times : Int) = ((acc + times.sum) * 60).floor := by
  induction times generalizing acc with
  | nil =>
    have hfloor : (acc * 60).floor = 0 := Int.floor_eq_zero_iff.mpr ⟨by linarith, h'⟩
    rw [List.sum_nil, add_zero, hfloor]
    rfl
  | cons t ts ih =>
    obtain ⟨ht, hts⟩ := List.forall_mem_cons.mp ht
    obtain ⟨hsum, hrest, hrest'⟩ := timerCount_spec (add_nonneg h ht)
    have hmul : (acc + (t :: ts).sum) * 60 = ((timerCount acc t).2 + ts.sum) * 60 + ((timerCount acc t).1 : Int) := by
      rw [List.sum_cons, ← add_assoc, hsum]
      push_cast
      ring
    rw [totalDecrements, Nat.cast_add, ih hrest hrest' hts, hmul, Rat.floor_add_intCast, add_comm]

/-- Settles O50: an empty accumulator adds nothing to the time. -/
theorem decrementsFollowWallTime : Obligations.DecrementsFollowWallTime := by
  intro times ht
  rw [totalDecrements_eq_floor le_rfl (by norm_num) ht, zero_add]

/-- Settles O51: 1 second is 60 decrements, a whole number, so the window adds exactly them to the floor. -/
theorem oneSecondTakesSixtyDecrements : Obligations.OneSecondTakesSixtyDecrements := by
  intro before window hb hw hsum
  have hall : ∀ t ∈ before ++ window, 0 ≤ t := List.forall_mem_append.mpr ⟨hb, hw⟩
  have hmul : (before ++ window).sum * 60 = before.sum * 60 + (60 : Int) := by
    rw [List.sum_append, hsum]; push_cast; ring
  have h := decrementsFollowWallTime _ hall
  have h' := decrementsFollowWallTime _ hb
  rw [hmul, Rat.floor_add_intCast] at h
  omega

/-! ### The end of a tick -/

/-- A CPU step keeps the session, `sched` and what the host will do; it keeps the phase too, or is fatal. -/
theorem cpuStep_tick {s t : State} (h : cpuStep s = .next t) :
    t.tornDown = s.tornDown ∧ t.sched = s.sched ∧ t.host = s.host ∧ (t.phase = s.phase ∨ t.phase = .frame) := by
  unfold cpuStep at h
  split at h
  · unfold executeWord at h
    split at h
    · obtain ⟨h1, h2, h3, ⟨h4, -⟩ | ⟨r, rfl⟩⟩ := exec_tick h
      · exact ⟨h1, h2, h3, .inl h4⟩
      · exact ⟨h1, h2, h3, .inr rfl⟩
    · obtain rfl := Host.Outcome.next.inj h
      exact ⟨rfl, rfl, rfl, .inl rfl⟩
  · obtain rfl := Host.Outcome.next.inj h
    exact ⟨rfl, rfl, rfl, .inr rfl⟩

/-- So does a turn of step (b); after it the tick is at step (c), at step (d) or in step (b) with one CPU step less left. -/
theorem cpuPhase_tick {s t : State} {left : Nat} (h : cpuPhase left s = .next t) :
    t.tornDown = s.tornDown ∧ t.sched = s.sched ∧ t.host = s.host ∧
      (t.phase = .timers ∨ t.phase = .frame ∨ ∃ n, left = n + 1 ∧ t.phase = .cpu n) := by
  cases left with
  | zero =>
    obtain rfl := Host.Outcome.next.inj h
    exact ⟨rfl, rfl, rfl, .inl rfl⟩
  | succ n =>
    rw [cpuPhase] at h
    split at h
    · obtain rfl := Host.Outcome.next.inj h
      exact ⟨rfl, rfl, rfl, .inl rfl⟩
    · obtain ⟨h1, h2, h3, h4 | h4⟩ := cpuStep_tick h
      · exact ⟨h1, h2, h3, .inr (.inr ⟨n, rfl, h4⟩)⟩
      · exact ⟨h1, h2, h3, .inr (.inl h4)⟩

/-- And so does the timer phase, after which the tick is at step (d). -/
theorem State.timerPhase_tick (s : State) : s.timerPhase.tornDown = s.tornDown ∧ s.timerPhase.sched = s.sched ∧
    s.timerPhase.host = s.host ∧ s.timerPhase.phase = .frame := by
  rw [State.timerPhase_eq]
  exact ⟨rfl, rfl, rfl, rfl⟩

/-- Within `bound` steps the tick in progress is over, and the session still live unless the host has a teardown due with at
most `left` CPU steps left (R299). -/
def State.TickEndsWithin (s : State) (bound left : Nat) : Prop :=
  ∃ k t, k ≤ bound ∧ Sys2Proof.core.run k s = .next t ∧ t.phase = .boundary ∧
    (t.tornDown = true → ∃ m, m ≤ left ∧ s.host.head? = some (.teardownBetweenSteps m))

/-- One step that leaves the host alone takes one step of the bound. -/
theorem State.TickEndsWithin.of_step {s t : State} {bound left left' : Nat} (h : t.TickEndsWithin bound left)
    (hstep : step s = .next t) (hhost : t.host = s.host) (hleft : left ≤ left') : s.TickEndsWithin (bound + 1) left' := by
  obtain ⟨k, u, hk, hrun, hphase, hdown⟩ := h
  refine ⟨k + 1, u, Nat.succ_le_succ hk, (run_succ k hstep).trans hrun, hphase, fun hu => ?_⟩
  obtain ⟨m, hm, hhead⟩ := hdown hu
  exact ⟨m, hm.trans hleft, hhost ▸ hhead⟩

theorem State.TickEndsWithin.mono {s : State} {bound bound' left : Nat} (h : s.TickEndsWithin bound left)
    (hb : bound ≤ bound') : s.TickEndsWithin bound' left := by
  obtain ⟨k, t, hk, ht⟩ := h
  exact ⟨k, t, hk.trans hb, ht⟩

section
variable {s : State}

/-- Steps (d) and (e) end the tick of a live session (R290). -/
theorem State.tickEnds_of_frame (hlive : s.tornDown = false) (hrun : s.sched = .running) (hphase : s.phase = .frame)
    (left : Nat) : s.TickEndsWithin 2 left := by
  obtain ⟨hd, he⟩ := step_step_of_frame hlive hrun hphase
  refine ⟨2, _, le_rfl, (run_succ 1 hd).trans (run_succ 0 he), ?_, ?_⟩
  · rw [State.eventPhase_eq]
  · rw [State.eventPhase_eq, State.framePhase_eq]
    exact fun h => absurd (hlive.symm.trans h) nofun

/-- Before them, step (c) (R290). -/
theorem State.tickEnds_of_timers (hlive : s.tornDown = false) (hrun : s.sched = .running) (hphase : s.phase = .timers)
    (left : Nat) : s.TickEndsWithin 3 left := by
  obtain ⟨hdown, hsched, hhost, hframe⟩ := s.timerPhase_tick
  exact (State.tickEnds_of_frame (hdown.trans hlive) (hsched.trans hrun) hframe left).of_step
    (step_timers hlive hrun hphase) hhost le_rfl

/-- A teardown that is due ends the tick at once (R299). -/
theorem State.tickEnds_of_teardownDue {n : Nat} (hlive : s.tornDown = false) (hrun : s.sched = .running)
    (hphase : s.phase = .cpu n) (hdue : s.host.head? = some (.teardownBetweenSteps n)) : s.TickEndsWithin 1 n := by
  obtain ⟨rest, hrest⟩ := List.head?_eq_some_iff.mp hdue
  have hstep := step_teardownDue hlive hrun hphase hdue
  rw [State.takeInput_cons hrest] at hstep
  exact ⟨1, _, le_rfl, run_succ 0 hstep, rfl, fun _ => ⟨n, le_rfl, hdue⟩⟩

end

/-- Step (b) ends within one step more than the CPU steps left, and steps (c) to (e) follow, or (d) and (e) alone. -/
theorem State.tickEnds_of_cpu {s : State} {n : Nat} (hlive : s.tornDown = false) (hrun : s.sched = .running)
    (hphase : s.phase = .cpu n) : s.TickEndsWithin (n + 4) n := by
  induction n using Nat.strong_induction_on generalizing s with
  | _ n ih =>
    by_cases hdue : s.host.head? = some (.teardownBetweenSteps n)
    · exact (State.tickEnds_of_teardownDue hlive hrun hphase hdue).mono (by omega)
    obtain ⟨t, hstep⟩ := step_answers hlive
    obtain ⟨hdown, hsched, hhost, hnext⟩ := cpuPhase_tick ((step_cpu hlive hrun hphase hdue).symm.trans hstep)
    have hlive' : t.tornDown = false := hdown.trans hlive
    have hrun' : t.sched = .running := hsched.trans hrun
    obtain ht | ht | ⟨m, rfl, ht⟩ := hnext
    · exact ((State.tickEnds_of_timers hlive' hrun' ht n).of_step hstep hhost le_rfl).mono (by omega)
    · exact ((State.tickEnds_of_frame hlive' hrun' ht n).of_step hstep hhost le_rfl).mono (by omega)
    · exact (ih m (by omega) hlive' hrun' ht).of_step hstep hhost (by omega)

/-- Settles O53: by induction on the CPU steps left, each of which takes one step. -/
theorem everyTickEnds : Obligations.EveryTickEnds :=
  fun _ _ => State.tickEnds_of_cpu

/-! ### Idle and Halted -/

/-- In Idle and Halted, wall time starts no tick: the events that come with it are taken one by one (R297, R298). -/
theorem State.elapse_idle (s : State) (h : s.sched ≠ .running) (time : Rat) (during : List InEvent) :
    s.elapse time during = during.foldl State.offer s := by
  unfold State.elapse
  split
  · next hrun => exact absurd hrun h
  all_goals rfl

/-- Of the events offered in Idle and Halted, the last `set_speed` sets the rate (R297, R298, R302). -/
theorem State.offers_idle_lastSpeed (s : State) (h : s.sched ≠ .running) (pre : List InEvent) (r : Int) {post : List InEvent}
    (hpost : ∀ q, InEvent.setSpeed q ∉ post) :
    ((pre ++ .setSpeed r :: post).foldl State.offer s).tickRate = (min (max r 100) 3000).toNat := by
  obtain ⟨rate, hpre, -⟩ := State.offers_idle pre s h
  obtain ⟨-, -, hspeed⟩ := State.offer_idle { s with tickRate := rate } h
  obtain ⟨rate', hrate, hkept⟩ := State.offers_idle post { s with tickRate := (min (max r 100) 3000).toNat } h
  rw [List.foldl_append, hpre, List.foldl_cons, hspeed, hrate]
  exact hkept hpost

/-- Settles O54: the input taken is wall time or an offer, and in Idle and Halted an offer sets the rate at most. -/
theorem idleAndHaltedRunNoTick : Obligations.IdleAndHaltedRunNoTick := by
  intro s hlive hidle
  have hbetween : s.betweenTicks := ⟨hlive, .inl hidle⟩
  have hoffer : ∀ e rest, s.host = .offer e :: rest → step s = .next ({ s with host := rest }.offer e) :=
    fun e rest hhost => step_input hbetween hhost
  refine ⟨step_noInput hbetween, ?wallTime, ?down, ?up, ?speed⟩
  case wallTime =>
    intro time during rest hhost
    obtain ⟨rate, hrate, hkept⟩ := State.offers_idle during { s with host := rest } hidle
    refine ⟨during.foldl State.offer { s with host := rest }, ?next, by rw [hrate], fun hnone => ?kept, ?lastSpeed⟩
    case next =>
      rw [step_input hbetween hhost, State.applyInput, State.elapse_idle { s with host := rest } hidle]
    case kept =>
      rw [hrate]
      exact hkept hnone
    case lastSpeed =>
      rintro pre r post rfl hpost
      exact State.offers_idle_lastSpeed { s with host := rest } hidle pre r hpost
  case down =>
    intro k rest hhost
    obtain ⟨hdown, -, -⟩ := State.offer_idle { s with host := rest } hidle
    rw [hoffer _ _ hhost, hdown]
  case up =>
    intro k rest hhost
    obtain ⟨-, hup, -⟩ := State.offer_idle { s with host := rest } hidle
    rw [hoffer _ _ hhost, hup]
  case speed =>
    intro r rest hhost
    obtain ⟨-, -, hspeed⟩ := State.offer_idle { s with host := rest } hidle
    rw [hoffer _ _ hhost, hspeed]

/-- `t` is `s` but for the tick rate, the inputs that the host has given and the events that it has taken. -/
structure HaltedLater (s t : State) : Prop where
  host : t.host.Sublist s.host
  outbound : t.outbound.Sublist s.outbound
  frame : t = { s with host := t.host, tickRate := t.tickRate, outbound := t.outbound }

theorem HaltedLater.refl (s : State) : HaltedLater s s := ⟨.refl _, .refl _, rfl⟩

theorem HaltedLater.trans {s t u : State} (hst : HaltedLater s t) (htu : HaltedLater t u) : HaltedLater s u :=
  ⟨htu.host.trans hst.host, htu.outbound.trans hst.outbound, htu.frame.trans (by rw [hst.frame])⟩

/-- The inputs by which the host ends Halted: a load and the teardowns (R270, R299). -/
def HostInput.leavesHalted : HostInput → Bool
  | .load _ | .teardown | .teardownBetweenSteps _ => true
  | .offer _ | .elapse _ _ | .accept | .dropFrame _ => false

/-- In Halted, any other input is nothing but taken, sets the tick rate or takes from the channel (R295, R298). -/
theorem HaltedLater.applyInput {s : State} {i : HostInput} (hhalt : s.sched = .halted) (hi : i.leavesHalted = false) :
    HaltedLater s (s.applyInput i) := by
  have hidle : s.sched ≠ .running := by rw [hhalt]; nofun
  cases i with
  | load | teardown | teardownBetweenSteps => cases hi
  | accept => exact ⟨.refl _, List.tail_sublist _, rfl⟩
  | dropFrame n => exact ⟨.refl _, dropFrameAt_sublist n _, rfl⟩
  | offer e =>
    obtain ⟨rate, hrate, -⟩ := State.offers_idle [e] s hidle
    rw [List.foldl_cons, List.foldl_nil] at hrate
    rw [State.applyInput, hrate]
    exact ⟨.refl _, .refl _, rfl⟩
  | elapse time during =>
    obtain ⟨rate, hrate, -⟩ := State.offers_idle during s hidle
    rw [State.applyInput, State.elapse_idle s hidle, hrate]
    exact ⟨.refl _, .refl _, rfl⟩

/-- A step in Halted (R270, R295, R298). -/
theorem step_halted {s : State} (hlive : s.tornDown = false) (hhalt : s.sched = .halted)
    (hhost : ∀ i ∈ s.host, i.leavesHalted = false) : ∃ t, step s = .next t ∧ HaltedLater s t := by
  have hbetween : s.betweenTicks := ⟨hlive, .inl (by rw [hhalt]; nofun)⟩
  cases hh : s.host with
  | nil => exact ⟨s, step_noInput hbetween hh, .refl s⟩
  | cons i rest =>
    have htaken : HaltedLater s { s with host := rest } := ⟨by rw [hh]; exact List.sublist_cons_self i rest, .refl _, rfl⟩
    exact ⟨_, step_input hbetween hh, htaken.trans (.applyInput hhalt (hhost i (hh ▸ List.mem_cons_self)))⟩

/-- Any number of steps in Halted: every step leaves the block halted, with fewer inputs of the host to come. -/
theorem run_halted (n : Nat) {s : State} (hlive : s.tornDown = false) (hhalt : s.sched = .halted)
    (hhost : ∀ i ∈ s.host, i.leavesHalted = false) : ∃ t, Sys2Proof.core.run n s = .next t ∧ HaltedLater s t := by
  induction n generalizing s with
  | zero => exact ⟨s, rfl, .refl s⟩
  | succ n ih =>
    obtain ⟨t, hstep, hst⟩ := step_halted hlive hhalt hhost
    have hlive' : t.tornDown = false := by rw [hst.frame]; exact hlive
    have hhalt' : t.sched = .halted := by rw [hst.frame]; exact hhalt
    obtain ⟨u, hrun, htu⟩ := ih hlive' hhalt' fun i hi => hhost i (hst.host.subset hi)
    exact ⟨u, (run_succ n hstep).trans hrun, hst.trans htu⟩

/-- Settles O55: by induction on the steps, since the inputs that are left are never a load or a teardown. -/
theorem haltedIsTerminalUntilALoad : Obligations.HaltedIsTerminalUntilALoad := by
  intro n s hlive hhalt hload hdown hbetween
  have hhost : ∀ i ∈ s.host, i.leavesHalted = false := by
    intro i hi
    cases i with
    | load bytes => exact absurd hi (hload bytes)
    | teardown => exact absurd hi hdown
    | teardownBetweenSteps k => exact absurd hi (hbetween k)
    | offer | elapse | accept | dropFrame => rfl
  obtain ⟨t, hrun, hst⟩ := run_halted n hlive hhalt hhost
  exact ⟨t, hrun, hst.outbound, hst.frame⟩

/-! ### Loads that are rejected -/

/-- A load of more than 3584 bytes is rejected (R303, R331). -/
theorem State.loadRom_rejected (s : State) {bytes : List Byte} (h : 3584 < bytes.length) :
    s.loadRom bytes = { s with loadReply := some .invalidROM } :=
  if_pos h

/-- Settles O57: a request between two ticks is the load, which the length alone rejects; a ROM of 3584 bytes ends at 0xFFF. -/
theorem oversizedRomIsRejected : Obligations.OversizedRomIsRejected := by
  intro bytes s
  constructor
  · intro hlen
    refine ⟨s.loadRom_rejected hlen, fun rest hbetween hhost => ?_⟩
    rw [step_input hbetween hhost, State.applyInput, State.loadRom_rejected _ hlen]
  · intro hlen
    rw [State.loadRom_accepted s hlen.le]
    refine ⟨rfl, fun a hlow hhigh => ?_⟩
    obtain ⟨j, rfl⟩ := Nat.exists_eq_add_of_le hlow
    have hj : j < bytes.length := by omega
    rw [State.readByte_loadReset_rom s bytes hj, Nat.add_sub_cancel_left, List.getD_eq_getElem _ _ hj]

end Sys2Proof.Machine
end

section
/-! PROOFS. A new session (spec 70_reset_and_hazards.md, R333): its memory reads 0, and every other item is 0 or what it starts as. -/

namespace Sys2Proof.Machine

/-- The zeroed memory reads 0 everywhere: its 0 bytes cover the font table, and memory is 0 from 0x200 up after reset too. -/
theorem Memory.read_zeroed (a : Nat) : Memory.zeroed.read a = 0 := by
  have hlen : (List.replicate Config.progBase (0 : Byte)).length = 0x200 := List.length_replicate
  by_cases h : a < 0x200
  · have hread := Memory.read_image 0 (List.replicate Config.progBase 0) a (hlen ▸ h)
    rwa [Nat.zero_add, List.getElem_replicate] at hread
  · have hge : 0x200 ≤ a := Nat.not_lt.mp h
    rw [Memory.zeroed, Memory.read_image_outside _ _ (.inr (by omega)), Memory.unlisted_of_ge hge]

/-- Settles O58: the file of registers, the stack, the keys, the display and memory by their reads, the other fields as created. -/
theorem sessionIsCreatedIdle : Obligations.SessionIsCreatedIdle := by
  have hregs (r : Reg) : State.created.getV r = 0 := Vector.getElem_replicate _
  have hstack (j : Fin 16) : State.created.stack[j.val] = 0 := Vector.getElem_replicate _
  have hpixels (x y : Nat) : State.created.disp.pixel x y = false := Display.pixel_cleared x y
  have hkeys (k : Reg) : State.created.keyPressed k = false := Vector.getElem_replicate _
  have hmem (a : Nat) (_ : a ≤ 0xFFF) : State.created.readByte a = 0 := Memory.read_zeroed a
  exact ⟨rfl, hregs, rfl, rfl, rfl, hstack, rfl, rfl, rfl, rfl, rfl, rfl, hpixels, hkeys, rfl, hmem, rfl, initialTickRate_range⟩

end Sys2Proof.Machine
end
